-- ==== Sys2Proof/Word.lean ====
section
/-! DEFINITION. The widths of B32DEC: the plain types every other file uses (00_scope R6). -/

namespace Sys2Proof

/-- An input character, an output byte or an error payload: 8 bits (R6, R26, R56). -/
abbrev Byte := BitVec 8

/-- A symbol value, 0 to 31 (R6, R14). -/
abbrev Symbol := BitVec 5

/-- A command word on `cmd_data` (R70). -/
abbrev Word := BitVec 16

/-- The STATUS word (R36). -/
abbrev StatusWord := BitVec 32

end Sys2Proof
end

