-- ==== Sys2Proof/Syntax.lean ====
section
/-! DEFINITION. The commands of B32DEC: one constructor per row of the opcode table (30_encoding R71). -/

namespace Sys2Proof

/-- A command. The bits every rule ignores (RSVD of R73, the DATA of EOS and of the reserved rows of R72) are no part
of it: words that differ in them alone are one command. Log 13. -/
inductive Instr where
  /-- CHAR: one input character (R100). -/
  | char (c : Byte)
  /-- EOS: the end of the input stream (R105). -/
  | eos
  /-- SINKFAIL: the sink rejected or truncated a write (R150). -/
  | sinkfail (code : Byte)
  /-- EXTERR: an unanticipated failure outside the block (R151). -/
  | exterr (code : Byte)
  /-- RESERVED_4_7: a reserved opcode whose OP is 0x4 to 0x7 (R152). -/
  | reserved47 (op : BitVec 4)
  /-- RESERVED_8_F: a reserved opcode whose OP is 0x8 to 0xF (R152). -/
  | reserved8F (op : BitVec 4)
deriving DecidableEq, Repr

end Sys2Proof
end

