-- ==== Sys2Proof/WellFormed.lean ====
section
/-! DEFINITION. Which terms of `Instr` are commands the encoding space holds. -/

namespace Sys2Proof

/-- The reserved rows hold the OP values of their own range (opcode_table.json, R71). Every DATA byte is allowed. -/
def Instr.wellFormed : Instr → Bool
  | .char _ => true
  | .eos => true
  | .sinkfail _ => true
  | .exterr _ => true
  | .reserved47 op => decide (4 ≤ op.toNat ∧ op.toNat ≤ 7)
  | .reserved8F op => decide (8 ≤ op.toNat)

/-- A command the encoding space holds. -/
abbrev Instr.WellFormed (i : Instr) : Prop := i.wellFormed = true

end Sys2Proof
end

