-- ==== Sys2Proof/Decode.lean ====
section
/-! DEFINITION. Decoding a command word (30_encoding R70 to R76), and the encoder. -/

namespace Sys2Proof

/-! ## The fields of the one format, CMD (R70) -/

/-- OP = cmd[15:12]. -/
def opOf (w : Word) : BitVec 4 := w.extractLsb' 12 4

/-- RSVD = cmd[11:8], which no rule reads (R73). -/
def rsvdOf (w : Word) : BitVec 4 := w.extractLsb' 8 4

/-- DATA = cmd[7:0], an unsigned operand, never extended, scaled or shifted (R72). -/
def dataOf (w : Word) : Byte := w.extractLsb' 0 8

/-- `{OP, RSVD, DATA}` (R70). -/
def cmdWord (op : BitVec 4) (rsvd : BitVec 4) (data : Byte) : Word := op ++ rsvd ++ data

/-! ## Decoding -/

/-- The command an OP and a DATA select: the opcode map of R71. -/
def decodeFields (op : BitVec 4) (data : Byte) : Instr :=
  if op = 0x0#4 then .char data
  else if op = 0x1#4 then .eos
  else if op = 0x2#4 then .sinkfail data
  else if op = 0x3#4 then .exterr data
  else if op.toNat < 8 then .reserved47 op
  else .reserved8F op

/-- The command of a word. Every one of the 65,536 words has one (R71, R75, R76): OP alone selects the row. -/
def decode (w : Word) : Instr := decodeFields (opOf w) (dataOf w)

/-- Why a string of bits is no command. -/
inductive DecodeReject where
  /-- It is longer than 16 bits: a command has no other length (R70). -/
  | notOneWord
deriving DecidableEq, Repr

/-- The word whose low `nbits` bits are those of `w` and whose other bits are 0. -/
def wordOfBits (nbits w : Nat) : Word := BitVec.ofNat 16 (w % 2 ^ nbits)

/-- Decoding `nbits` bits given as a number. Only a length over one command word is rejected (R70). Log 18. -/
def decodeBits (nbits w : Nat) : Except DecodeReject Instr :=
  if nbits ≤ 16 then .ok (decode (wordOfBits nbits w)) else .error .notOneWord

/-- The decoder as the host asks it, on a word numbered as the opcode table numbers it. -/
def decodeTableWord (nbits w : Nat) : Option Instr :=
  match decodeBits nbits w with
  | .ok i => some i
  | .error _ => none

/-! ## The rows of opcode_table.json -/

/-- One row of the table: a word `w` is of the row when `w &&& mask = pattern`. -/
structure OpcodeRow where
  mnemonic : String
  pattern : Word
  mask : Word
deriving DecidableEq, Repr

/-- The table, its rows in its order. -/
def opcodeRows : List OpcodeRow :=
  [ ⟨"CHAR", 0x0000#16, 0xF000#16⟩,
    ⟨"EOS", 0x1000#16, 0xF000#16⟩,
    ⟨"SINKFAIL", 0x2000#16, 0xF000#16⟩,
    ⟨"EXTERR", 0x3000#16, 0xF000#16⟩,
    ⟨"RESERVED_4_7", 0x4000#16, 0xC000#16⟩,
    ⟨"RESERVED_8_F", 0x8000#16, 0x8000#16⟩ ]

/-- A word is of a row. -/
def OpcodeRow.holds (r : OpcodeRow) (w : Word) : Bool := decide (w &&& r.mask = r.pattern)

/-- The mnemonic the table gives a command. -/
def Instr.mnemonic : Instr → String
  | .char _ => "CHAR"
  | .eos => "EOS"
  | .sinkfail _ => "SINKFAIL"
  | .exterr _ => "EXTERR"
  | .reserved47 _ => "RESERVED_4_7"
  | .reserved8F _ => "RESERVED_8_F"

/-! ## Encoding -/

/-- The word of a command, with every ignored bit 0, as software should write it (R72, R73, R78). -/
def encode : Instr → Word
  | .char c => cmdWord 0x0#4 0x0#4 c
  | .eos => cmdWord 0x1#4 0x0#4 0x00#8
  | .sinkfail code => cmdWord 0x2#4 0x0#4 code
  | .exterr code => cmdWord 0x3#4 0x0#4 code
  | .reserved47 op => cmdWord op 0x0#4 0x00#8
  | .reserved8F op => cmdWord op 0x0#4 0x00#8

end Sys2Proof
end

