-- ==== Sys2Proof/Machine/Roms.lean ====
section
/-! DEFINITION. The read-only tables of B32DEC (10_state R31 to R35) and the whitespace set (R32). They are constants
of the machine, which nothing can write (R63). Log 5. -/

namespace Sys2Proof.Machine

open Sys2Proof

/-- ALPH: the character of each symbol value, `A` to `Z` and then `2` to `7` (R31). Log 14. -/
def alph : Vector Byte 32 :=
  #v[0x41#8, 0x42#8, 0x43#8, 0x44#8, 0x45#8, 0x46#8, 0x47#8, 0x48#8,
     0x49#8, 0x4A#8, 0x4B#8, 0x4C#8, 0x4D#8, 0x4E#8, 0x4F#8, 0x50#8,
     0x51#8, 0x52#8, 0x53#8, 0x54#8, 0x55#8, 0x56#8, 0x57#8, 0x58#8,
     0x59#8, 0x5A#8, 0x32#8, 0x33#8, 0x34#8, 0x35#8, 0x36#8, 0x37#8]

/-- ALPH[v]. -/
def alphAt (v : Symbol) : Byte := alph.get v.toFin

/-- ALPH_INV, the source's inverse for diagnostics: the same table read by value. No command reads it (R34). -/
def alphInv : Vector Byte 32 := alph

/-- DEC_LUT: the symbol value of a character, and `none` where its valid bit is 0 (R33). The symbol of an invalid
character is not defined, so there is none to read. -/
def decLut (c : Byte) : Option Symbol :=
  if 0x41#8 ≤ c ∧ c ≤ 0x5A#8 then some ((c - 0x41#8).setWidth 5)
  else if 0x32#8 ≤ c ∧ c ≤ 0x37#8 then some ((c - 0x32#8 + 26#8).setWidth 5)
  else none

/-- `valid(c)`: the character is in the alphabet (R33). -/
def validChar (c : Byte) : Bool := (decLut c).isSome

/-- WS, exactly four bytes: space, tab, newline, carriage return (R32). -/
def whitespace : List Byte := [0x20#8, 0x09#8, 0x0A#8, 0x0D#8]

/-- The byte is in WS. -/
def isWhitespace (c : Byte) : Bool := decide (c ∈ whitespace)

/-- HEX_DIGIT: the lowercase digit of each nibble (R35). -/
def hexDigit : Vector Byte 16 :=
  #v[0x30#8, 0x31#8, 0x32#8, 0x33#8, 0x34#8, 0x35#8, 0x36#8, 0x37#8,
     0x38#8, 0x39#8, 0x61#8, 0x62#8, 0x63#8, 0x64#8, 0x65#8, 0x66#8]

/-- HEX_DIGIT[n]. -/
def hexDigitAt (n : BitVec 4) : Byte := hexDigit.get n.toFin

end Sys2Proof.Machine
end

