-- ==== Sys2Proof/Config.lean ====
section
/-! DEFINITION. What the machine's rules leave open and a run fixes: the free values. -/

namespace Sys2Proof

/-- The contents of BUF[0..7] after the `n`-th reset that ends inside a run. R42 and R180 leave them unspecified
(93 U1: any value), so they have no body here and nothing can be proved about them. Log 4. -/
opaque Config.bufAfterReset : Nat → Vector Byte 8

end Sys2Proof
end

