-- ==== Sys2Proof/Machine/State.lean ====
section
/-! DEFINITION. The state of B32DEC (10_state R20), the pins and agents around it, and its reset. -/

namespace Sys2Proof.Machine

open Sys2Proof

/-- RUN_STATE (R24). Its fourth value, 3, is never held and has no constructor. Log 6. -/
inductive RunState where
  /-- Commands are processed. -/
  | running
  /-- End of stream processed with no error. -/
  | done
  /-- An error is latched; terminal until reset. -/
  | halted
deriving DecidableEq, Repr

/-- ERR_KIND (R25). Its values 5 to 7 are never held and have no constructor. Log 6. -/
inductive ErrKind where
  | none
  | invalidData
  | invalidSize
  | writeFailed
  | other
deriving DecidableEq, Repr

/-- What the agents outside do next, in their order; one step takes one of them. Log 1, log 8, log 9. -/
inductive HostEvent where
  /-- The host presents a command word on `cmd_data` (R52). -/
  | command (w : Word)
  /-- The host presents a command word, and asserts `rst` when the sink has taken `sent` of the bytes the command puts
  out, or all of them if they are fewer (R182). -/
  | commandCutByReset (w : Word) (sent : Nat)
  /-- `rst` goes to 1 between commands (R180). -/
  | assertReset
  /-- `rst` goes to 0, which ends reset (R180). -/
  | releaseReset
  /-- The host drives the `hex_en` strap to a level (R28, R183). -/
  | driveHexEn (level : Bool)
deriving DecidableEq, Repr

/-- How the sink takes bytes from now on (R53, R187). A wait that ends is not visible in an untimed model. Log 7. -/
inductive Sink where
  /-- It takes every byte. -/
  | always
  /-- It takes `n` more bytes and then holds `out_ready` at 0 for ever. -/
  | stallsAfter (n : Nat)
deriving DecidableEq, Repr

/-- The machine between steps. -/
structure State where
  /-- BUF[0..7], the chunk buffer (R21). -/
  buf : Vector Byte 8
  /-- CHUNK_LEN, the number of characters BUF holds (R22). -/
  chunkLen : BitVec 4
  /-- RUN_STATE (R24). -/
  runState : RunState
  /-- ERR_KIND, the latched error kind (R25). -/
  errKind : ErrKind
  /-- ERR_PAYLOAD, its diagnostic payload (R26). -/
  errPayload : Byte
  /-- HEX_EN, the hex-output option (R28). -/
  hexEn : Bool
  /-- OUT_LOG, every byte the sink has taken since reset, oldest first (R41). Log 16. -/
  outLog : List Byte
  /-- The level of the `rst` pin (R51, R180). -/
  rst : Bool
  /-- The level of the `hex_en` pin (R51, R28). -/
  hexEnPin : Bool
  /-- What the host does next, the next event first (R51, R57). Log 1. -/
  input : List HostEvent
  /-- The sink (R9). Log 7. -/
  sink : Sink
  /-- The model's own counter of resets ended in the run: the argument of the free value of BUF. Log 4. -/
  resetCount : Nat
deriving DecidableEq, Repr

/-- What stops the machine. -/
inductive Fault where
  /-- The sink has stopped taking bytes for ever in the middle of a command, having taken `sent` of that command's
  bytes: the command never completes (R187). Raised by `emitAll`, so by the CHAR and EOS whose flush puts bytes out.
  Safe: the spec's own stuck state (93 U11). -/
  | sinkStalled (sent : List Byte)
deriving DecidableEq, Repr

/-- What the model gives no meaning. -/
inductive Refusal where
  /-- A command whose meaning is not written yet, raised by `exec` alone. Safe: the run stops. No arm raises it. -/
  | notModelled (mnemonic : String)
deriving DecidableEq, Repr

/-- The machine right after a reset with the `hex_en` strap at `pin` and `buf` left in BUF (R42, R180): no event is
waiting, and the sink takes every byte (log 7). -/
def State.resetWith (pin : Bool) (buf : Vector Byte 8) : State where
  buf := buf
  chunkLen := 0#4
  runState := .running
  errKind := .none
  errPayload := 0x00#8
  hexEn := pin
  outLog := []
  rst := false
  hexEnPin := pin
  input := []
  sink := .always
  resetCount := 0

/-- The machine right after reset, with the strap at 0 (log 2) and BUF, which R42 leaves unspecified, at 0 (log 3). -/
def State.reset : State := State.resetWith false (Vector.replicate 8 0x00#8)

end Sys2Proof.Machine
end

