-- ==== Sys2Proof/Machine/DecodeEngine.lean ====
section
/-! DEFINITION. The Decode Engine's pure function `decode` (41_decode_engine R121 to R126). -/

namespace Sys2Proof.Machine

open Sys2Proof

/-- NBYTES, the bytes a chunk of `len` characters decodes to; `none` at the lengths it is not defined for (R121). -/
def nbytes (len : Nat) : Option Nat :=
  if len = 0 then some 0
  else if len = 2 then some 1
  else if len = 4 then some 2
  else if len = 5 then some 3
  else if len = 7 then some 4
  else if len = 8 then some 5
  else none

/-- What `decode` returns (R125). -/
inductive DecodeResult where
  | ok (bytes : List Byte)
  | err (kind : ErrKind) (payload : Byte)
deriving DecidableEq, Repr

/-- The payload of INVALID_SIZE, `zext_8(L)` (R26, R122). -/
def sizePayload (len : Nat) : Byte := BitVec.ofNat 8 len

/-- Step 2: the symbols of a chunk, or its first character outside the alphabet (R123). -/
def lookupAll : List Byte → Except Byte (List Symbol)
  | [] => .ok []
  | c :: cs =>
    match decLut c with
    | none => .error c
    | some v =>
      match lookupAll cs with
      | .error bad => .error bad
      | .ok vs => .ok (v :: vs)

/-- The 40-bit value V: `V <- (V << 5) | zext_40(v)` for each symbol in order (R124, R125). -/
def concatSymbols (vs : List Symbol) : BitVec 40 :=
  vs.foldl (fun acc v => (acc <<< 5) ||| v.setWidth 40) 0#40

/-- DISC(L) = 5L - 8 NBYTES(L), the bits discarded at the low end of V (R121). -/
def discarded (len n : Nat) : Nat := 5 * len - 8 * n

/-- Byte `k` of the `n` bytes of V, which hold the bits of `len` symbols: `(V >> (d + 8(n-1-k))) & 0xFF` (R125). -/
def sliceByte (v : BitVec 40) (len n k : Nat) : Byte :=
  (v >>> (discarded len n + 8 * (n - 1 - k))).setWidth 8

/-- Step 3: the `n` bytes of a chunk's symbols, from the most significant end (R124, R125). -/
def repack (vs : List Symbol) (n : Nat) : List Byte :=
  (List.range n).map (sliceByte (concatSymbols vs) vs.length n)

/-- `decode(ch)`: the length check, then the characters, then the bytes (R122 to R125). It depends on `ch` alone. -/
def decodeChunk (ch : List Byte) : DecodeResult :=
  match nbytes ch.length with
  | none => .err .invalidSize (sizePayload ch.length)
  | some n =>
    match lookupAll ch with
    | .error bad => .err .invalidData bad
    | .ok vs => .ok (repack vs n)

end Sys2Proof.Machine
end

