-- ==== Sys2Proof/Machine/Flags.lean ====
section
/-! DEFINITION. What the host reads: the codes of the status fields, the STATUS word and the output lines. -/

namespace Sys2Proof.Machine

open Sys2Proof

/-- The 2-bit encoding of RUN_STATE (R24). -/
def RunState.code : RunState → BitVec 2
  | .running => 0#2
  | .done => 1#2
  | .halted => 2#2

/-- The 3-bit encoding of ERR_KIND (R25). -/
def ErrKind.code : ErrKind → BitVec 3
  | .none => 0#3
  | .invalidData => 1#3
  | .invalidSize => 2#3
  | .writeFailed => 3#3
  | .other => 4#3

/-- `STATUS = {8'h00, ERR_PAYLOAD, 4'h0, CHUNK_LEN, 2'b00, HEX_EN, ERR_KIND, RUN_STATE}` (R36). A read has no side
effect (R37), and the reserved bits read 0 (R38). -/
def State.status (s : State) : StatusWord :=
  0x00#8 ++ s.errPayload ++ 0x0#4 ++ s.chunkLen ++ 0b00#2 ++ BitVec.ofBool s.hexEn ++ s.errKind.code ++ s.runState.code

/-- The `halted` line (R39). -/
def State.haltedLine (s : State) : Bool := decide (s.runState = .halted)

/-- The `done` line (R39). -/
def State.doneLine (s : State) : Bool := decide (s.runState = .done)

/-- `cmd_ready` between steps: no command is in progress, so it is 0 only while `rst` is 1 (R52, R180). -/
def State.cmdReady (s : State) : Bool := !s.rst

/-- `out_valid` between steps: it is 1 only while a command is in progress and has bytes left to send (R53). -/
def State.outValid (_ : State) : Bool := false

end Sys2Proof.Machine
end

