-- ==== Sys2Proof/Machine/HexFormatter.lean ====
section
/-! DEFINITION. The Hex Formatter (42_hex_formatter R140 to R143). -/

namespace Sys2Proof.Machine

open Sys2Proof

/-- The two lowercase digits of a byte, the most significant nibble first (R140). -/
def hexOfByte (b : Byte) : List Byte :=
  [hexDigitAt (b.extractLsb' 4 4), hexDigitAt (b.extractLsb' 0 4)]

/-- `toHex`: the digits of each byte, in list order, with nothing between them (R140, R143). -/
def toHex : List Byte → List Byte
  | [] => []
  | b :: bs => hexOfByte b ++ toHex bs

/-- What a successful flush puts out: `toHex(bytes)` when HEX_EN is 1 (R141), the bytes themselves when it is 0 (R142). -/
def formatOut (hexEn : Bool) (bytes : List Byte) : List Byte :=
  if hexEn then toHex bytes else bytes

end Sys2Proof.Machine
end

