-- ==== Sys2Proof/Machine/Operands.lean ====
section
/-! DEFINITION. The operands of the commands: the chunk in BUF, the payload of a protocol error, and the named updates
of the state the commands make. (DATA itself is taken from the word by `dataOf` of Decode.lean.) -/

namespace Sys2Proof.Machine

open Sys2Proof

/-- The chunk `[BUF[0], ..., BUF[L-1]]` with L = CHUNK_LEN, in index order (R21, R120). -/
def State.chunk (s : State) : List Byte := s.buf.toList.take s.chunkLen.toNat

/-- `0xF0 OR zext_8(OP)`, the payload of a protocol error of the command with that OP (R26, R104, R107, R152). -/
def protocolPayload (op : BitVec 4) : Byte := 0xF0#8 ||| op.setWidth 8

/-- `BUF[CHUNK_LEN] <- c`, then `CHUNK_LEN <- CHUNK_LEN + 1` (R101). CHUNK_LEN is 0 to 7 before it (R22). Log 11. -/
def State.append (s : State) (c : Byte) : State :=
  { s with buf := s.buf.setIfInBounds s.chunkLen.toNat c, chunkLen := s.chunkLen + 1#4 }

/-- `CHUNK_LEN <- 0`: the accumulator resets to an empty chunk (R102, R120). BUF is left as it is. Log 12. -/
def State.emptyChunk (s : State) : State := { s with chunkLen := 0#4 }

/-- `RUN_STATE <- DONE` (R106). -/
def State.markDone (s : State) : State := { s with runState := .done }

/-- The three writes of a raise (R161). -/
def State.latch (s : State) (kind : ErrKind) (payload : Byte) : State :=
  { s with errKind := kind, errPayload := payload, runState := .halted }

/-- `emit` for each byte in list order, by a sink that takes them all and then is `sink` (R11, R41). -/
def State.put (s : State) (bytes : List Byte) (sink : Sink) : State :=
  { s with outLog := s.outLog ++ bytes, sink := sink }

end Sys2Proof.Machine
end

