-- ==== Sys2Proof/Machine/Ops.lean ====
section
/-! DEFINITION. The operations the commands share: the sink, `emit`, `raise`, FLUSH, the HALTED test, and reset. -/

namespace Sys2Proof.Machine

open Sys2Proof

/-- How far a command has come at one point of its pseudocode. -/
inductive Effect where
  /-- The rest of the pseudocode follows, from this state. -/
  | goesOn (s : State)
  /-- A `raise` has ended the command in this state: nothing after it executes (R161). -/
  | ends (s : State)
  /-- The command never completes. -/
  | stuck (r : Fault)
deriving DecidableEq, Repr

/-- The rest of the pseudocode, run only if the command has not ended. -/
def Effect.andThen : Effect → (State → Effect) → Effect
  | .goesOn s, rest => rest s
  | .ends s, _ => .ends s
  | .stuck r, _ => .stuck r

/-- The outcome of the whole command. -/
def Effect.outcome : Effect → Host.Outcome State Fault Refusal
  | .goesOn s => .next s
  | .ends s => .next s
  | .stuck r => .fault r

/-! ## The sink and the output port -/

/-- How many of `n` bytes offered the sink takes (R53, R187). -/
def Sink.takes : Sink → Nat → Nat
  | .always, n => n
  | .stallsAfter room, n => min room n

/-- The sink after it has taken `n` bytes. -/
def Sink.after : Sink → Nat → Sink
  | .always, _ => .always
  | .stallsAfter room, n => .stallsAfter (room - n)

/-- `emit_all(bytes)` (R11). If the sink does not take them all, the command stays incomplete for ever (R187). -/
def emitAll (bytes : List Byte) (s : State) : Effect :=
  if s.sink.takes bytes.length = bytes.length then .goesOn (s.put bytes (s.sink.after bytes.length))
  else .stuck (.sinkStalled (bytes.take (s.sink.takes bytes.length)))

/-! ## Taking an error, and the one way back -/

/-- `raise Error(kind, payload)` (R161): the only way an error is taken. It saves nothing else, changes no mode or
mask, and has no vector. -/
def raiseError (kind : ErrKind) (payload : Byte) (s : State) : Effect := .ends (s.latch kind payload)

/-- The step that ends reset (R180), the only way out of HALTED and DONE (R165, R181): HEX_EN takes the level of the
strap, BUF becomes unspecified, OUT_LOG is emptied. The pins and the agents outside are not the block's to reset. -/
def resetBlock (s : State) : State :=
  { s with
    buf := Config.bufAfterReset s.resetCount
    chunkLen := 0#4
    runState := .running
    errKind := .none
    errPayload := 0x00#8
    hexEn := s.hexEnPin
    outLog := []
    rst := false
    resetCount := s.resetCount + 1 }

/-! ## FLUSH -/

/-- FLUSH (R120): the chunk is handed over and CHUNK_LEN becomes 0 whatever the outcome; a failing decode raises and
puts nothing out (R127); a successful one puts its bytes out, as hex when HEX_EN is 1. -/
def flush (s : State) : Effect :=
  match decodeChunk s.chunk with
  | .err kind payload => raiseError kind payload s.emptyChunk
  | .ok bytes => emitAll (formatOut s.hexEn bytes) s.emptyChunk

/-! ## The start of every command -/

/-- In HALTED every command is taken and has no effect (R162, R75); else the command runs. -/
def unlessHalted (command : State → Effect) (s : State) : Host.Outcome State Fault Refusal :=
  if s.runState = .halted then .next s else (command s).outcome

end Sys2Proof.Machine
end

