-- ==== Sys2Proof/Machine/Accumulator.lean ====
section
/-! DEFINITION. The Block Accumulator's commands CHAR and EOS (40_accumulator). -/

namespace Sys2Proof.Machine

open Sys2Proof

/-- The end of CHAR's pseudocode: a chunk of 8 is flushed at once (R102). -/
def flushIfFull (s : State) : Effect :=
  if s.chunkLen = 8#4 then flush s else .goesOn s

/-- The pseudocode of CHAR (R100): the DONE check comes before the whitespace test (R104), whitespace is dropped
(R103), any other byte is appended unchecked (R101). -/
def charEffect (c : Byte) (s : State) : Effect :=
  if s.runState = .done then raiseError .other (protocolPayload 0x0#4) s
  else if isWhitespace c then .goesOn s
  else flushIfFull (s.append c)

/-- CHAR (R100 to R104). -/
def execChar (c : Byte) (s : State) : Host.Outcome State Fault Refusal := unlessHalted (charEffect c) s

/-- A chunk that is not empty is flushed (R106). -/
def flushIfAny (s : State) : Effect :=
  if s.chunkLen ≠ 0#4 then flush s else .goesOn s

/-- The pseudocode of EOS (R105): DONE is reached only if the flush raised nothing (R106). -/
def eosEffect (s : State) : Effect :=
  if s.runState = .done then raiseError .other (protocolPayload 0x1#4) s
  else (flushIfAny s).andThen fun t => .goesOn t.markDone

/-- EOS (R105 to R107). -/
def execEos (s : State) : Host.Outcome State Fault Refusal := unlessHalted eosEffect s

end Sys2Proof.Machine
end

