-- ==== Sys2Proof/Machine/ErrorInputs.lean ====
section
/-! DEFINITION. The error reports SINKFAIL and EXTERR and the reserved opcodes (43_error_inputs). -/

namespace Sys2Proof.Machine

open Sys2Proof

/-- SINKFAIL (R150), accepted in RUNNING and DONE. -/
def execSinkfail (code : Byte) (s : State) : Host.Outcome State Fault Refusal :=
  unlessHalted (raiseError .writeFailed code) s

/-- EXTERR (R151), accepted in RUNNING and DONE. -/
def execExterr (code : Byte) (s : State) : Host.Outcome State Fault Refusal :=
  unlessHalted (raiseError .other code) s

/-- A reserved opcode 0x4 to 0x7 (R152). -/
def execReserved47 (op : BitVec 4) (s : State) : Host.Outcome State Fault Refusal :=
  unlessHalted (raiseError .other (protocolPayload op)) s

/-- A reserved opcode 0x8 to 0xF (R152). -/
def execReserved8F (op : BitVec 4) (s : State) : Host.Outcome State Fault Refusal :=
  unlessHalted (raiseError .other (protocolPayload op)) s

end Sys2Proof.Machine
end

