-- ==== Sys2Proof/Machine/Dispatch.lean ====
section
/-! DEFINITION. `exec`: one arm per row of the opcode table (30_encoding R71, R75). -/

namespace Sys2Proof.Machine

open Sys2Proof

/-- The whole effect of one command (R10, R75). -/
def exec (i : Instr) (s : State) : Host.Outcome State Fault Refusal :=
  match i with
  | .char c => Sys2Proof.Machine.execChar c s
  | .eos => Sys2Proof.Machine.execEos s
  | .sinkfail code => Sys2Proof.Machine.execSinkfail code s
  | .exterr code => Sys2Proof.Machine.execExterr code s
  | .reserved47 op => Sys2Proof.Machine.execReserved47 op s
  | .reserved8F op => Sys2Proof.Machine.execReserved8F op s

end Sys2Proof.Machine
end

