-- ==== Sys2Proof/Machine/Events.lean ====
section
/-! DEFINITION. What each event at the ports does (20_memory R51, R52; 70_reset_and_hazards R180 to R182). -/

namespace Sys2Proof.Machine

open Sys2Proof

/-- The bytes a command puts out in a state, were the sink to take them all. -/
def commandOutput (w : Word) (s : State) : List Byte :=
  match exec (decode w) { s with sink := .always } with
  | .next t => t.outLog.drop s.outLog.length
  | .fault _ => []
  | .refused _ => []

/-- `rst` asserted while a command is in progress, when the sink has taken the bytes `sent` of it: the command is
abandoned and `rst` is 1 (R182). The registers are left for the end of reset to set. Log 8. -/
def abandonCommand (sent : List Byte) (s : State) : State :=
  { s with outLog := s.outLog ++ sent, sink := s.sink.after sent.length, rst := true }

/-- The bytes of a command that a reset during it finds taken: the first `n`, or as many as there are and the sink
takes. -/
def sentBeforeReset (w : Word) (n : Nat) (s : State) : List Byte :=
  (commandOutput w s).take (s.sink.takes n)

/-- One event. While `rst` is 1, `cmd_ready` is 0 and a word presented is not taken (R52, R180, R185). Releasing `rst`
ends a reset only if it was asserted. -/
def handleEvent (e : HostEvent) (s : State) : Host.Outcome State Fault Refusal :=
  match e with
  | .command w => if s.cmdReady then exec (decode w) s else .next s
  | .commandCutByReset w n => if s.cmdReady then .next (abandonCommand (sentBeforeReset w n s) s) else .next s
  | .assertReset => .next { s with rst := true }
  | .releaseReset => if s.rst then .next (resetBlock s) else .next s
  | .driveHexEn level => .next { s with hexEnPin := level }

/-- The state with the waiting command of `withFetchWord` at the port: `w` is presented next, and `rst` is 0, without
which no word is taken (R52). -/
def presentWord (w : Word) (s : State) : State :=
  { s with rst := false, input := .command w :: s.input }

end Sys2Proof.Machine
end

