-- ==== Sys2Proof/Machine/Step.lean ====
section
/-! DEFINITION. One step of the machine: the next event at its ports (00_scope R10, R12). -/

namespace Sys2Proof.Machine

open Sys2Proof

/-- One step. With no event waiting the block is idle and holds its state (R173). Log 10. -/
def step (s : State) : Host.Outcome State Fault Refusal :=
  match s.input with
  | [] => .next s
  | e :: rest => handleEvent e { s with input := rest }

/-- `s` with a command word presented next. B32DEC has no program counter and fetches nothing (R29): a program is the
sequence of words the host presents. Log 1. -/
def State.withFetchWord (s : State) (nbits w : Nat) : State := presentWord (wordOfBits nbits w) s

end Sys2Proof.Machine
end

