-- ==== Sys2Proof/Machine/Assembler.lean ====
section
/-! DEFINITION. The assembler (30_encoding R78, R79): from source text, as bytes, to command words. It is no part of the
block. Log 20. -/

namespace Sys2Proof.Machine

open Sys2Proof

/-- One line of source, read. -/
inductive AsmItem where
  | char (c : Byte)
  | eos
  | sinkfail (code : Byte)
  | exterr (code : Byte)
  /-- `.word imm16` -/
  | rawWord (w : Word)
  /-- `STR "s"` -/
  | str (s : List Byte)
  /-- `STREAM "s"` -/
  | stream (s : List Byte)
deriving DecidableEq, Repr

/-- Why a line is refused. -/
inductive AsmError where
  | unknownMnemonic
  | badOperand
  /-- A number over 255, or over 65535 for `.word` (R78). -/
  | tooLarge
  /-- Text after the operand that is no comment. -/
  | trailingText
deriving DecidableEq, Repr

/-- The words of an item: R78 for a command, R79 for a pseudo-instruction. -/
def AsmItem.words : AsmItem → List Word
  | .char c => [encode (.char c)]
  | .eos => [encode .eos]
  | .sinkfail code => [encode (.sinkfail code)]
  | .exterr code => [encode (.exterr code)]
  | .rawWord w => [w]
  | .str s => s.map fun c => encode (.char c)
  | .stream s => s.map (fun c => encode (.char c)) ++ [encode .eos]

/-! ## Reading text -/

/-- The bytes of an ASCII string. -/
def ascii (s : String) : List Byte := s.toList.map fun c => BitVec.ofNat 8 c.toNat

/-- Space or tab between the parts of a line. -/
def isBlank (b : Byte) : Bool := b == 0x20#8 || b == 0x09#8

/-- The text after its leading blanks. -/
def skipBlanks : List Byte → List Byte
  | [] => []
  | b :: bs => if isBlank b then skipBlanks bs else b :: bs

/-- Nothing is left but blanks and a comment, which `;` starts. -/
def atEnd (text : List Byte) : Bool :=
  match skipBlanks text with
  | [] => true
  | b :: _ => b == 0x3B#8

/-- The value of a digit. -/
def digitValue (b : Byte) : Option Nat :=
  if 0x30#8 ≤ b ∧ b ≤ 0x39#8 then some (b.toNat - 0x30)
  else if 0x61#8 ≤ b ∧ b ≤ 0x66#8 then some (b.toNat - 0x61 + 10)
  else if 0x41#8 ≤ b ∧ b ≤ 0x46#8 then some (b.toNat - 0x41 + 10)
  else none

/-- The value of a digit of a base. -/
def digitOf (base : Nat) (b : Byte) : Option Nat :=
  match digitValue b with
  | some d => if d < base then some d else none
  | none => none

/-- The digits at the front of a text, read on from `acc`, and the rest of the text. -/
def readDigits (base : Nat) : Nat → List Byte → Nat × List Byte
  | acc, [] => (acc, [])
  | acc, b :: bs =>
    match digitOf base b with
    | some d => readDigits base (acc * base + d) bs
    | none => (acc, b :: bs)

/-- The digits of a number of a base, at least one. -/
def readNumberIn (base : Nat) (text : List Byte) : Option (Nat × List Byte) :=
  match text with
  | [] => none
  | b :: bs => if (digitOf base b).isSome then some (readDigits base 0 (b :: bs)) else none

/-- A number: `0x` hexadecimal, `0b` binary, else decimal (R78). -/
def readNumber (text : List Byte) : Option (Nat × List Byte) :=
  if text.take 2 = ascii "0x" then readNumberIn 16 (text.drop 2)
  else if text.take 2 = ascii "0b" then readNumberIn 2 (text.drop 2)
  else readNumberIn 10 text

/-- A number that is at most `limit` (R78: the assembler refuses a larger value), and the end of the line. -/
def readImm (limit : Nat) (text : List Byte) : Except AsmError Nat :=
  match readNumber text with
  | none => .error .badOperand
  | some (n, rest) =>
    if !atEnd rest then .error .trailingText
    else if n ≤ limit then .ok n
    else .error .tooLarge

/-- An 8-bit operand. -/
def readImm8 (text : List Byte) : Except AsmError Byte :=
  match readImm 255 text with
  | .ok n => .ok (BitVec.ofNat 8 n)
  | .error e => .error e

/-- The byte an escape letter stands for, after a backslash; `quote` is the quote mark the literal may escape. -/
def escapeByte (quote : Option Byte) (b : Byte) : Option Byte :=
  if b = 0x74#8 then some 0x09#8
  else if b = 0x6E#8 then some 0x0A#8
  else if b = 0x72#8 then some 0x0D#8
  else if b = 0x5C#8 then some 0x5C#8
  else if quote = some b then some b
  else none

/-- The rest of a `'c'` literal, which is one byte or one of the escapes of R78. -/
def readCharLiteral (text : List Byte) : Except AsmError Byte :=
  match text with
  | b :: q :: rest =>
    if b = 0x5C#8 then
      match escapeByte none q, rest with
      | some c, q' :: rest' =>
        if q' = 0x27#8 then (if atEnd rest' then .ok c else .error .trailingText) else .error .badOperand
      | _, _ => .error .badOperand
    else if q = 0x27#8 ∧ b ≠ 0x27#8 then (if atEnd rest then .ok b else .error .trailingText)
    else .error .badOperand
  | _ => .error .badOperand

/-- The bytes up to the closing double quote, with the escapes of R79, and the text after it. -/
def readString : List Byte → Option (List Byte × List Byte)
  | [] => none
  | b :: bs =>
    if b = 0x22#8 then some ([], bs)
    else if b = 0x5C#8 then
      match bs with
      | [] => none
      | e :: rest =>
        match escapeByte (some 0x22#8) e, readString rest with
        | some c, some (s, after) => some (c :: s, after)
        | _, _ => none
    else
      match readString bs with
      | some (s, after) => some (b :: s, after)
      | none => none

/-- A quoted string and the end of the line. -/
def readQuoted (text : List Byte) : Except AsmError (List Byte) :=
  match text with
  | b :: bs =>
    if b = 0x22#8 then
      match readString bs with
      | some (s, rest) => if atEnd rest then .ok s else .error .trailingText
      | none => .error .badOperand
    else .error .badOperand
  | [] => .error .badOperand

/-- The operand of CHAR: `'c'` or a number. -/
def readCharOperand (text : List Byte) : Except AsmError Byte :=
  match text with
  | b :: bs => if b = 0x27#8 then readCharLiteral bs else readImm8 text
  | [] => .error .badOperand

/-- An item from its mnemonic and the text after it. -/
def readItem (mnemonic operand : List Byte) : Except AsmError AsmItem :=
  if mnemonic = ascii "CHAR" then (readCharOperand operand).map .char
  else if mnemonic = ascii "EOS" then (if atEnd operand then .ok .eos else .error .trailingText)
  else if mnemonic = ascii "SINKFAIL" then
    (if atEnd operand then .ok (.sinkfail 0x00#8) else (readImm8 operand).map .sinkfail)
  else if mnemonic = ascii "EXTERR" then (readImm8 operand).map .exterr
  else if mnemonic = ascii ".word" then (readImm 65535 operand).map fun n => .rawWord (BitVec.ofNat 16 n)
  else if mnemonic = ascii "STR" then (readQuoted operand).map .str
  else if mnemonic = ascii "STREAM" then (readQuoted operand).map .stream
  else .error .unknownMnemonic

/-- The words of one line: none for an empty line or a comment, else those of its one command (R78). -/
def assembleLine (line : List Byte) : Except AsmError (List Word) :=
  if atEnd line then .ok []
  else
    let text := skipBlanks line
    let inMnemonic := fun b => !(isBlank b || b == 0x3B#8)
    (readItem (text.takeWhile inMnemonic) (skipBlanks (text.dropWhile inMnemonic))).map AsmItem.words

/-- The lines of a text, which newlines (0x0A) separate. -/
def splitLines : List Byte → List (List Byte)
  | [] => [[]]
  | b :: bs =>
    if b = 0x0A#8 then [] :: splitLines bs
    else
      match splitLines bs with
      | [] => [[b]]
      | line :: lines => (b :: line) :: lines

/-- The words of some lines, in order; the first line refused refuses them all. -/
def assembleLines : List (List Byte) → Except AsmError (List Word)
  | [] => .ok []
  | line :: lines =>
    match assembleLine line, assembleLines lines with
    | .ok ws, .ok rest => .ok (ws ++ rest)
    | .error e, _ => .error e
    | .ok _, .error e => .error e

/-- The words of a source text. -/
def assemble (text : List Byte) : Except AsmError (List Word) := assembleLines (splitLines text)

end Sys2Proof.Machine
end

