-- ==== Sys2Proof/Safety.lean ====
section
/-! DEFINITION. The terms claims are made in: the invariant between commands, runs of command words, whole streams, and
the reference encoder. -/

namespace Sys2Proof.Machine

open Sys2Proof

/-! ## The invariant between steps -/

/-- CHUNK_LEN is 0 to 7 between commands (R22). -/
abbrev State.LenInRange (s : State) : Prop := s.chunkLen.toNat ≤ 7

/-- The three invariants of R27. -/
abbrev State.ErrorInv (s : State) : Prop :=
  (s.errKind = .none ↔ s.runState ≠ .halted) ∧
  (s.errKind = .none → s.errPayload = 0x00#8) ∧
  (s.runState = .done → s.chunkLen = 0#4)

/-- No whitespace byte is in the chunk (R103). -/
abbrev State.ChunkInv (s : State) : Prop := ∀ c ∈ s.chunk, isWhitespace c = false

/-- What the payload of an error kind can be (R26): for INVALID_DATA a byte outside the alphabet, for INVALID_SIZE one
of the lengths 1, 3 and 6. -/
abbrev State.PayloadInv (s : State) : Prop :=
  (s.errKind = .invalidData → validChar s.errPayload = false) ∧
  (s.errKind = .invalidSize → s.errPayload = 0x01#8 ∨ s.errPayload = 0x03#8 ∨ s.errPayload = 0x06#8)

/-- A byte of {0x30..0x39, 0x61..0x66} (R141). -/
def isHexCode (b : Byte) : Bool := decide ((0x30#8 ≤ b ∧ b ≤ 0x39#8) ∨ (0x61#8 ≤ b ∧ b ≤ 0x66#8))

/-- With HEX_EN set, the output is hex text (R141). -/
abbrev State.HexInv (s : State) : Prop := s.hexEn = true → ∀ b ∈ s.outLog, isHexCode b = true

/-- What holds between the steps of every run. -/
abbrev State.Inv (s : State) : Prop :=
  s.LenInRange ∧ s.ErrorInv ∧ s.ChunkInv ∧ s.PayloadInv ∧ s.HexInv

/-! ## States that nothing can tell apart -/

/-- The states agree on everything but the BUF slots at index CHUNK_LEN and above, which no rule reads (R23). -/
def SameButDeadSlots (s t : State) : Prop :=
  t = { s with buf := t.buf } ∧ s.chunk = t.chunk

/-- Two outcomes of which the same can be said up to the dead slots. -/
def SameOutcome : Host.Outcome State Fault Refusal → Host.Outcome State Fault Refusal → Prop
  | .next s, .next t => SameButDeadSlots s t
  | .fault r, .fault r' => r = r'
  | .refused r, .refused r' => r = r'
  | _, _ => False

/-! ## Runs of command words -/

/-- The words, one after the other, each with its whole effect before the next (R60), up to the first stop. -/
def runWords : List Word → State → Host.Outcome State Fault Refusal
  | [], s => .next s
  | w :: ws, s =>
    match exec (decode w) s with
    | .next t => runWords ws t
    | .fault r => .fault r
    | .refused r => .refused r

/-- `n` steps, up to the first stop: `Host.Core.run` of this machine. -/
def runSteps : Nat → State → Host.Outcome State Fault Refusal
  | 0, s => .next s
  | n + 1, s =>
    match step s with
    | .next t => runSteps n t
    | .fault r => .fault r
    | .refused r => .refused r

/-- A CHAR for each byte, in order. -/
def charWords (cs : List Byte) : List Word := cs.map fun c => encode (.char c)

/-- A whole stream: its characters, then one EOS (R79, R183). -/
def streamWords (cs : List Byte) : List Word := charWords cs ++ [encode .eos]

/-- The stream of non-whitespace characters (R108). -/
def dataBytes (cs : List Byte) : List Byte := cs.filter fun c => !isWhitespace c

/-- The stream split into chunks `d[8k .. 8k+7]`, the last of them shorter unless it is full (R108). -/
def chunksOf8 : List Byte → List (List Byte)
  | [] => []
  | a :: b :: c :: d :: e :: f :: g :: h :: rest => [a, b, c, d, e, f, g, h] :: chunksOf8 rest
  | short => [short]

/-- The output of the chunks up to the first that fails, and its error if there is one: nothing after it is decoded
(R108, R127, R128). -/
def streamResult (hexEn : Bool) : List (List Byte) → List Byte × Option (ErrKind × Byte)
  | [] => ([], none)
  | ch :: rest =>
    match decodeChunk ch with
    | .err kind payload => ([], some (kind, payload))
    | .ok bytes => (formatOut hexEn bytes ++ (streamResult hexEn rest).1, (streamResult hexEn rest).2)

/-- A state in which a stream starts: as reset leaves it, before a sink that takes every byte. BUF, HEX_EN, the `hex_en`
pin and the host's later events are free. -/
abbrev State.StartsStream (s : State) : Prop :=
  s.runState = .running ∧ s.chunkLen = 0#4 ∧ s.errKind = .none ∧ s.errPayload = 0x00#8 ∧ s.outLog = [] ∧
  s.rst = false ∧ s.sink = .always

/-! ## The reference encoder of R129 law 3 (RFC 4648 without padding; log 17) -/

/-- The characters a group of `n` bytes is encoded in. -/
def charsOfBytes (n : Nat) : Nat :=
  if n = 0 then 0 else if n = 1 then 2 else if n = 2 then 4 else if n = 3 then 5 else if n = 4 then 7 else 8

/-- The bit of a byte stream at a place, counted from its most significant end; 0 past its end. -/
def streamBit (bytes : List Byte) (p : Nat) : Bool := (bytes.getD (p / 8) 0x00#8).getMsbD (p % 8)

/-- The symbol in place `i` of a group: bits 5i to 5i+4 of its byte stream. -/
def groupSymbol (bytes : List Byte) (i : Nat) : Symbol :=
  BitVec.ofBool (streamBit bytes (5 * i)) ++ BitVec.ofBool (streamBit bytes (5 * i + 1)) ++
  BitVec.ofBool (streamBit bytes (5 * i + 2)) ++ BitVec.ofBool (streamBit bytes (5 * i + 3)) ++
  BitVec.ofBool (streamBit bytes (5 * i + 4))

/-- The Base32 text of a group of up to 5 bytes. -/
def encodeGroup (bytes : List Byte) : List Byte :=
  (List.range (charsOfBytes bytes.length)).map fun i => alphAt (groupSymbol bytes i)

/-- The symbol of a character, 0 where it has none. -/
def symbolOr0 (c : Byte) : Symbol := (decLut c).getD 0#5

/-- A valid chunk whose discarded trailing bits are all zero (R14). -/
def Canonical (ch : List Byte) : Prop :=
  ∃ n, nbytes ch.length = some n ∧ (∀ c ∈ ch, validChar c = true) ∧
    ∀ j < discarded ch.length n, (symbolOr0 (ch.getLastD 0x00#8)).getLsbD j = false

end Sys2Proof.Machine
end

