-- ==== Sys2Proof/Certificates/Slice0/Obligations.lean ====
section
/-! DEFINITION. The statements about B32DEC, from the numbered rules of spec/. Nothing is proved here. -/

open Sys2Proof Sys2Proof.Machine

/-! ## Encoding -/

/-- Decoding inverts encoding on every well-formed command, every word decodes to a well-formed command, and encoding
that gives back the word with its ignored bits cleared: RSVD always, DATA for EOS and the reserved opcodes (R70, R72,
R73). -/
def Obligations.DecodeEncodeAgree : Prop :=
  (∀ i : Instr, i.WellFormed → decode (encode i) = i) ∧
  (∀ w : Word, (decode w).WellFormed ∧
    (encode (decode w)).toNat =
      4096 * (w.toNat / 4096) +
        (if w.toNat / 4096 = 0 ∨ w.toNat / 4096 = 2 ∨ w.toNat / 4096 = 3 then w.toNat % 256 else 0))

/-- The opcode map of R71: OP, which is the word divided by 4096, alone selects the command, DATA is its low byte, and
exactly the row of opcode_table.json with the command's mnemonic holds of the word. -/
def Obligations.OpcodeSelectsOneRow : Prop :=
  ∀ w : Word,
    (w.toNat / 4096 = 0 → decode w = .char (BitVec.ofNat 8 w.toNat)) ∧
    (w.toNat / 4096 = 1 → decode w = .eos) ∧
    (w.toNat / 4096 = 2 → decode w = .sinkfail (BitVec.ofNat 8 w.toNat)) ∧
    (w.toNat / 4096 = 3 → decode w = .exterr (BitVec.ofNat 8 w.toNat)) ∧
    (4 ≤ w.toNat / 4096 → w.toNat / 4096 ≤ 7 → decode w = .reserved47 (BitVec.ofNat 4 (w.toNat / 4096))) ∧
    (8 ≤ w.toNat / 4096 → decode w = .reserved8F (BitVec.ofNat 4 (w.toNat / 4096))) ∧
    (∀ r ∈ opcodeRows, r.holds w = true ↔ r.mnemonic = (decode w).mnemonic)

/-- RSVD is ignored for every OP (R73): two words that differ in bits 11 to 8 alone have the same effect in every
state. -/
def Obligations.ReservedFieldIgnored : Prop :=
  ∀ (op rsvd : BitVec 4) (data : Byte) (s : State),
    exec (decode (op ++ rsvd ++ data)) s = exec (decode (op ++ 0#4 ++ data)) s

/-- The words of the encoding examples of R80, each as the spec writes it. -/
def Obligations.ExampleWordsDecode : Prop :=
  decode 0x004E#16 = .char 0x4E#8 ∧ decode 0x0020#16 = .char 0x20#8 ∧ decode 0x000A#16 = .char 0x0A#8 ∧
  decode 0x003D#16 = .char 0x3D#8 ∧ decode 0x1000#16 = .eos ∧ decode 0x2005#16 = .sinkfail 0x05#8 ∧
  decode 0x307F#16 = .exterr 0x7F#8 ∧ decode 0x0F4E#16 = .char 0x4E#8 ∧ decode 0x4000#16 = .reserved47 0x4#4

/-- The pseudo-instructions of R79: STR is one CHAR word for each byte, in order, and STREAM is STR followed by EOS; and
no word of either is of a reserved opcode. -/
def Obligations.PseudoInstructionExpansions : Prop :=
  ∀ bytes : List Byte,
    (AsmItem.str bytes).words.length = bytes.length ∧
    (∀ k, ∀ _ : k < bytes.length, ((AsmItem.str bytes).words[k]?).map BitVec.toNat = some bytes[k].toNat) ∧
    (AsmItem.stream bytes).words = (AsmItem.str bytes).words ++ [0x1000#16] ∧
    (∀ w ∈ (AsmItem.stream bytes).words, w.toNat / 4096 < 4)

/-- `CHAR 'c'` for every byte that is neither the quote mark nor the backslash assembles to the one word
`0x0000 | c` (R78). -/
def Obligations.CharLiteralAssembles : Prop :=
  ∀ c : Byte, c ≠ 0x27#8 → c ≠ 0x5C#8 →
    assembleLine (ascii "CHAR '" ++ [c] ++ ascii "'") = .ok [0x00#8 ++ c]

/-! ## Tables, hex and STATUS -/

/-- DEC_LUT (R33): the characters with a valid bit are those of the two ranges, their symbols are those of the formula,
and the function is the inverse of ALPH. -/
def Obligations.CharacterTableIsInverse : Prop :=
  (∀ c : Byte, validChar c = true ↔ (0x41 ≤ c.toNat ∧ c.toNat ≤ 0x5A) ∨ (0x32 ≤ c.toNat ∧ c.toNat ≤ 0x37)) ∧
  (∀ (c : Byte) (v : Symbol), decLut c = some v →
    v.toNat = (if 0x41 ≤ c.toNat then c.toNat - 0x41 else c.toNat - 0x32 + 26) ∧ alphAt v = c) ∧
  (∀ v : Symbol, decLut (alphAt v) = some v)

/-- `toHex` (R140) with the digits of R35: two bytes for each byte, the high nibble's digit first, every one of them a
lowercase hex code; and it distributes over concatenation (R144). -/
def Obligations.HexFormatterSpec : Prop :=
  (∀ bytes : List Byte,
    (toHex bytes).length = 2 * bytes.length ∧
    (∀ k, ∀ _ : k < bytes.length,
      ((toHex bytes)[2 * k]?).map BitVec.toNat =
        some (if bytes[k].toNat / 16 ≤ 9 then 0x30 + bytes[k].toNat / 16 else 0x61 + (bytes[k].toNat / 16 - 10)) ∧
      ((toHex bytes)[2 * k + 1]?).map BitVec.toNat =
        some (if bytes[k].toNat % 16 ≤ 9 then 0x30 + bytes[k].toNat % 16 else 0x61 + (bytes[k].toNat % 16 - 10))) ∧
    (∀ b ∈ toHex bytes, isHexCode b = true)) ∧
  (∀ xs ys : List Byte, toHex (xs ++ ys) = toHex xs ++ toHex ys)

/-- The STATUS word as a number: each field of R36 at its place and nothing else, so that the reserved bits [7:6],
[15:12] and [31:24] read 0 (R38). -/
def Obligations.StatusWordLayout : Prop :=
  ∀ s : State,
    s.status.toNat =
      (match s.runState with | .running => 0 | .done => 1 | .halted => 2) +
      4 * (match s.errKind with | .none => 0 | .invalidData => 1 | .invalidSize => 2 | .writeFailed => 3 | .other => 4) +
      32 * (if s.hexEn then 1 else 0) + 256 * s.chunkLen.toNat + 65536 * s.errPayload.toNat

/-! ## The Decode Engine -/

/-- The length check comes first (R122): a chunk of a length not in {0, 2, 4, 5, 7, 8} fails with INVALID_SIZE and its
length, whatever its characters, and the empty chunk gives no byte. -/
def Obligations.LengthCheckComesFirst : Prop :=
  (∀ ch : List Byte, ch.length ≤ 8 →
    ch.length ≠ 0 ∧ ch.length ≠ 2 ∧ ch.length ≠ 4 ∧ ch.length ≠ 5 ∧ ch.length ≠ 7 ∧ ch.length ≠ 8 →
    decodeChunk ch = .err .invalidSize (BitVec.ofNat 8 ch.length)) ∧
  decodeChunk [] = .ok []

/-- The character check (R123): in a chunk of valid length, the first character outside the alphabet is the payload of
INVALID_DATA, whatever follows it. -/
def Obligations.FirstBadCharacterReported : Prop :=
  ∀ (good : List Byte) (bad : Byte) (rest : List Byte),
    (good ++ bad :: rest).length ∈ [2, 4, 5, 7, 8] →
    (∀ c ∈ good, validChar c = true) → validChar bad = false →
    decodeChunk (good ++ bad :: rest) = .err .invalidData bad

/-- The repack (R121, R124), bit by bit: a chunk of valid length whose characters are all valid decodes to NBYTES(L)
bytes, and bit p of the byte stream, counted from its most significant end, is bit p of the stream of symbols. -/
def Obligations.RepackIsTheSameBitStream : Prop :=
  ∀ ch : List Byte, ch.length ∈ [0, 2, 4, 5, 7, 8] → (∀ c ∈ ch, validChar c = true) →
    ∃ bytes, decodeChunk ch = .ok bytes ∧ bytes.length = 5 * ch.length / 8 ∧
      ∀ p, ∀ _ : p < 8 * bytes.length, ∀ c v, ch[p / 5]? = some c → decLut c = some v →
        (bytes.getD (p / 8) 0x00#8).getMsbD (p % 8) = v.getMsbD (p % 5)

/-- The discarded bits are not checked (R126): two last characters whose symbols agree above the DISC(L) low bits give
the same bytes. -/
def Obligations.DiscardedBitsDoNotMatter : Prop :=
  ∀ (ch : List Byte) (c d : Byte) (v u : Symbol) (n : Nat),
    nbytes (ch.length + 1) = some n → (∀ x ∈ ch, validChar x = true) → decLut c = some v → decLut d = some u →
    v.toNat / 2 ^ (5 * (ch.length + 1) - 8 * n) = u.toNat / 2 ^ (5 * (ch.length + 1) - 8 * n) →
    ∃ bytes, decodeChunk (ch ++ [c]) = .ok bytes ∧ decodeChunk (ch ++ [d]) = .ok bytes

/-- Law 3 of R129: a canonical chunk is the Base32 text of the bytes it decodes to; and the text of any group of up to
five bytes decodes to them. The encoder is the model's reference (log 17). -/
def Obligations.CanonicalRoundTrip : Prop :=
  (∀ ch bytes, Canonical ch → decodeChunk ch = .ok bytes → encodeGroup bytes = ch) ∧
  (∀ bytes : List Byte, bytes.length ≤ 5 → decodeChunk (encodeGroup bytes) = .ok bytes)

/-! ## CHAR -/

/-- Whitespace (R103): a CHAR in RUNNING of one of the four bytes changes nothing at all; a CHAR in RUNNING of any other
byte counts as a character: it is the next of the chunk, or the eighth that makes it full and empties it. -/
def Obligations.WhitespaceIsDropped : Prop :=
  ∀ (s : State) (c : Byte), s.runState = .running →
    (c = 0x20#8 ∨ c = 0x09#8 ∨ c = 0x0A#8 ∨ c = 0x0D#8 → exec (.char c) s = .next s) ∧
    (c ≠ 0x20#8 ∧ c ≠ 0x09#8 ∧ c ≠ 0x0A#8 ∧ c ≠ 0x0D#8 →
      (s.chunkLen.toNat < 7 → ∃ t, exec (.char c) s = .next t ∧ t.chunk = s.chunk ++ [c]) ∧
      (s.chunkLen = 7#4 → s.sink = .always → ∃ t, exec (.char c) s = .next t ∧ t.chunk = []))

/-- The append (R101): in RUNNING a character that is not whitespace goes unchecked into BUF[CHUNK_LEN] and into no
other slot, CHUNK_LEN goes up by one and nothing else changes. That is the whole command when it does not fill the
chunk; when it does, the flush of R102 follows, from the state after the append. -/
def Obligations.CharAppendsToChunk : Prop :=
  ∀ (s : State) (c : Byte), s.runState = .running → s.chunkLen.toNat ≤ 7 →
    c ≠ 0x20#8 → c ≠ 0x09#8 → c ≠ 0x0A#8 → c ≠ 0x0D#8 →
    ∃ a, a = { s with buf := a.buf, chunkLen := a.chunkLen } ∧
      (∀ i, ∀ h : i < 8, a.buf[i]'h = if i = s.chunkLen.toNat then c else s.buf[i]'h) ∧
      a.chunkLen.toNat = s.chunkLen.toNat + 1 ∧
      (s.chunkLen.toNat < 7 → exec (.char c) s = .next a) ∧
      (s.chunkLen.toNat = 7 → exec (.char c) s = (flush a).outcome)

/-- The flush at eight (R102): the chunk of eight that the character makes full is decoded in the same command and
CHUNK_LEN becomes 0. If it decodes, its bytes go out, as hex when HEX_EN is 1, and the block keeps running; else the
error is latched and nothing goes out, whatever the sink does. Nothing else changes, but for BUF, of which R102 says
nothing and this statement too. -/
def Obligations.EighthCharacterFlushes : Prop :=
  ∀ (s : State) (c : Byte), s.runState = .running → s.chunkLen = 7#4 →
    c ≠ 0x20#8 → c ≠ 0x09#8 → c ≠ 0x0A#8 → c ≠ 0x0D#8 →
    (∀ bytes, decodeChunk (s.chunk ++ [c]) = .ok bytes → s.sink = .always →
      ∃ t, exec (.char c) s = .next t ∧
        t = { s with buf := t.buf, chunkLen := 0#4, outLog := s.outLog ++ (if s.hexEn then toHex bytes else bytes) }) ∧
    (∀ kind payload, decodeChunk (s.chunk ++ [c]) = .err kind payload →
      ∃ t, exec (.char c) s = .next t ∧
        t = { s with buf := t.buf, chunkLen := 0#4, runState := .halted, errKind := kind, errPayload := payload })

/-- Who writes BUF (R21, R43): every command but CHAR leaves it as it is, and so does a CHAR outside RUNNING or of a
whitespace byte; any other CHAR writes its byte to BUF[CHUNK_LEN] and to no other slot. For the eighth character this
says that it stays in BUF[7] after the flush, a failing one included, which is the model's reading (log 12). -/
def Obligations.OnlyCharWritesBuf : Prop :=
  ∀ (i : Instr) (s t : State), exec i s = .next t →
    ((∀ c, i ≠ .char c) → t.buf = s.buf) ∧
    (∀ c, i = .char c →
      (s.runState ≠ .running ∨ isWhitespace c = true → t.buf = s.buf) ∧
      (s.runState = .running → isWhitespace c = false →
        ∀ k, ∀ h : k < 8, t.buf[k]'h = if k = s.chunkLen.toNat then c else s.buf[k]'h))

/-- CHAR in DONE (R104): any byte, whitespace included, latches OTHER with 0xF0, and nothing else changes. -/
def Obligations.CharAfterEndOfStream : Prop :=
  ∀ (s : State) (c : Byte), s.runState = .done →
    exec (.char c) s = .next { s with runState := .halted, errKind := .other, errPayload := 0xF0#8 }

/-! ## EOS -/

/-- EOS in RUNNING (R106): an empty chunk is not flushed and the run ends in DONE; a chunk of 1 to 7 characters is
flushed once, and the run ends in DONE unless the flush raised, which it does whatever the sink does. Nothing else
changes. -/
def Obligations.EosFlushesTheLeftover : Prop :=
  ∀ s : State, s.runState = .running →
    (s.chunkLen = 0#4 → exec .eos s = .next { s with runState := .done }) ∧
    (1 ≤ s.chunkLen.toNat → s.chunkLen.toNat ≤ 7 →
      (∀ bytes, decodeChunk s.chunk = .ok bytes → s.sink = .always → exec .eos s = .next
        { s with chunkLen := 0#4, runState := .done, outLog := s.outLog ++ (if s.hexEn then toHex bytes else bytes) }) ∧
      (∀ kind payload, decodeChunk s.chunk = .err kind payload → exec .eos s = .next
        { s with chunkLen := 0#4, runState := .halted, errKind := kind, errPayload := payload }))

/-- EOS in DONE (R107): it latches OTHER with 0xF1, changes nothing else and puts nothing out. -/
def Obligations.SecondEosIsAnError : Prop :=
  ∀ s : State, s.runState = .done →
    exec .eos s = .next { s with runState := .halted, errKind := .other, errPayload := 0xF1#8 }

/-! ## Error inputs, reserved opcodes, HALTED -/

/-- SINKFAIL (R150): OP 2, whatever RSVD holds. In RUNNING and in DONE it latches WRITE_FAILED with its DATA byte, and
nothing else changes; in HALTED it has no effect. The last clause is the rule's worked example. -/
def Obligations.SinkfailLatchesWriteFailed : Prop :=
  (∀ (s : State) (code : Byte),
    (∀ rsvd : BitVec 4, decode (0x2#4 ++ rsvd ++ code) = .sinkfail code) ∧
    (s.runState ≠ .halted → exec (.sinkfail code) s =
      .next { s with runState := .halted, errKind := .writeFailed, errPayload := code }) ∧
    (s.runState = .halted → exec (.sinkfail code) s = .next s)) ∧
  (∀ s : State, s.runState = .running → s.hexEn = false → s.chunkLen = 0#4 →
    ∃ t, exec (.sinkfail 0x05#8) s = .next t ∧ t.status = 0x0005000E#32)

/-- EXTERR (R151): OP 3, whatever RSVD holds. In RUNNING and in DONE it latches OTHER with its DATA byte, and nothing
else changes; in HALTED it has no effect. The last clause is the rule's worked example; CHUNK_LEN is 0 in DONE (R27). -/
def Obligations.ExterrLatchesOther : Prop :=
  (∀ (s : State) (code : Byte),
    (∀ rsvd : BitVec 4, decode (0x3#4 ++ rsvd ++ code) = .exterr code) ∧
    (s.runState ≠ .halted → exec (.exterr code) s =
      .next { s with runState := .halted, errKind := .other, errPayload := code }) ∧
    (s.runState = .halted → exec (.exterr code) s = .next s)) ∧
  (∀ s : State, s.runState = .done → s.hexEn = true → s.chunkLen = 0#4 →
    ∃ t, exec (.exterr 0x7F#8) s = .next t ∧ t.status = 0x007F0032#32)

/-- Reserved opcodes (R152): a command of OP 4 to 7, and one of OP 8 to 15, whatever RSVD and DATA hold, latches OTHER
with 0xF0 + OP in RUNNING and in DONE, and nothing else changes; in HALTED it has no effect. The last clause is the
rule's worked example. -/
def Obligations.ReservedOpcodesLatchOther : Prop :=
  (∀ (s : State) (op : BitVec 4),
    (4 ≤ op.toNat → op.toNat ≤ 7 →
      (∀ (rsvd : BitVec 4) (data : Byte), decode (op ++ rsvd ++ data) = .reserved47 op) ∧
      (s.runState ≠ .halted → exec (.reserved47 op) s =
        .next { s with runState := .halted, errKind := .other, errPayload := BitVec.ofNat 8 (0xF0 + op.toNat) }) ∧
      (s.runState = .halted → exec (.reserved47 op) s = .next s)) ∧
    (8 ≤ op.toNat →
      (∀ (rsvd : BitVec 4) (data : Byte), decode (op ++ rsvd ++ data) = .reserved8F op) ∧
      (s.runState ≠ .halted → exec (.reserved8F op) s =
        .next { s with runState := .halted, errKind := .other, errPayload := BitVec.ofNat 8 (0xF0 + op.toNat) }) ∧
      (s.runState = .halted → exec (.reserved8F op) s = .next s))) ∧
  (∀ s : State, s.runState = .running → s.hexEn = false → s.chunkLen = 3#4 →
    ∃ t, exec (decode 0x4000#16) s = .next t ∧ t.status = 0x00F40312#32)

/-- HALTED is terminal (R162): whatever the command word, it is taken and leaves every element of state and OUT_LOG
unchanged, and no run of words replaces the latched error. -/
def Obligations.HaltedIgnoresEveryCommand : Prop :=
  ∀ (s : State) (ws : List Word), s.runState = .halted → runWords ws s = .next s

/-! ## The step -/

/-- A step runs the decoded command: when the host presents a word and `rst` is 0, the step is `exec` of the command the
word decodes to, on the state with that event taken. No program counter moves (R29). -/
def Obligations.StepRunsThePresentedCommand : Prop :=
  (∀ (s : State) (w : Word) (rest : List HostEvent), s.input = .command w :: rest → s.rst = false →
    step s = exec (decode w) { s with input := rest }) ∧
  (∀ (s : State) (nbits w : Nat), nbits ≤ 16 →
    step (s.withFetchWord nbits w) = exec (decode (BitVec.ofNat 16 (w % 2 ^ nbits))) { s with rst := false })

/-- The step function is total (R75): every command in every state has its one successor, except that it is stuck when
it is an EOS or a chunk-filling CHAR whose chunk decodes, and the sink stops for ever with bytes of it left to send,
having taken exactly the bytes it had room for; none is refused. -/
def Obligations.StepFunctionIsTotal : Prop :=
  ∀ (i : Instr) (s : State),
    (∃ t, exec i s = .next t) ∨
    (∃ room ch bytes, s.runState = .running ∧ s.sink = .stallsAfter room ∧ decodeChunk ch = .ok bytes ∧
      room < (formatOut s.hexEn bytes).length ∧
      exec i s = .fault (.sinkStalled ((formatOut s.hexEn bytes).take room)) ∧
      ((i = .eos ∧ ch = s.chunk) ∨ (∃ c, i = .char c ∧ ch = (s.append c).chunk ∧ (s.append c).chunkLen = 8#4)))

/-- Between commands (R173): with no event at its ports the block holds its state, and no event but a command or the
end of a reset changes anything of it: only the pins change. That an asserted `rst` changes nothing before the reset
ends is the model's reading of R180 (log 9). -/
def Obligations.OnlyCommandsAndResetChangeTheBlock : Prop :=
  (∀ s : State, s.input = [] → step s = .next s) ∧
  (∀ s : State, (∀ w, s.input.head? ≠ some (.command w)) → (∀ w n, s.input.head? ≠ some (.commandCutByReset w n)) →
    s.input.head? ≠ some .releaseReset →
    ∃ t, step s = .next t ∧ t = { s with rst := t.rst, hexEnPin := t.hexEnPin, input := s.input.tail })

/-- Pins (R28, R52, R180): driving the strap and asserting `rst` write no register; while `rst` is 1, `cmd_ready` and
`out_valid` are 0 and a word presented is not taken. The last line is the model's reading of a word that is not held
(log 9). -/
def Obligations.PinsAndReadyDuringReset : Prop :=
  ∀ (s : State) (rest : List HostEvent),
    (∀ level, s.input = .driveHexEn level :: rest → step s = .next { s with input := rest, hexEnPin := level }) ∧
    (s.input = .assertReset :: rest → step s = .next { s with input := rest, rst := true }) ∧
    (s.rst = true → s.cmdReady = false ∧ s.outValid = false) ∧
    (∀ w, s.rst = true → s.input = .command w :: rest → step s = .next { s with input := rest }) ∧
    (∀ w n, s.rst = true → s.input = .commandCutByReset w n :: rest → step s = .next { s with input := rest })

/-- The step that ends reset (R42, R180): every element has its reset value, HEX_EN that of the strap, and STATUS is
HEX_EN << 5. Nothing is said of BUF, which the rules leave unspecified. -/
def Obligations.ResetPutsEveryElement : Prop :=
  ∀ (s : State) (rest : List HostEvent), s.rst = true → s.input = .releaseReset :: rest →
    ∃ t, step s = .next t ∧ t.runState = .running ∧ t.errKind = .none ∧ t.errPayload = 0x00#8 ∧ t.chunkLen = 0#4 ∧
      t.hexEn = s.hexEnPin ∧ t.outLog = [] ∧ t.status = (if s.hexEnPin then 0x00000020#32 else 0x00000000#32) ∧
      t.rst = false ∧ t.cmdReady = true ∧ t.hexEnPin = s.hexEnPin ∧ t.input = rest ∧ t.sink = s.sink

/-- Only reset leaves HALTED, brings RUNNING back, clears a latched error or changes HEX_EN (R165, R181): any step that
does not end a reset keeps HEX_EN, does not come to RUNNING from DONE or HALTED, and leaves a halted block, its error,
its chunk and OUT_LOG as they are. (R181's "leave DONE" is read as "return to RUNNING": log 19.) -/
def Obligations.OnlyResetLeavesHalted : Prop :=
  ∀ s t : State, step s = .next t → ¬ (s.rst = true ∧ s.input.head? = some .releaseReset) →
    t.hexEn = s.hexEn ∧
    (s.runState ≠ .running → t.runState ≠ .running) ∧
    (s.runState = .halted →
      t = { s with rst := t.rst, hexEnPin := t.hexEnPin, input := s.input.tail })

/-- The output lines (R39, R163): each is decoded from RUN_STATE, so they are never both 1. A step that does not end a
reset never takes `halted` back to 0, and takes `done` back to 0 only when an error takes `halted` to 1. This last is
the model's reading against the words of R166, by which `done` too stays at 1 until reset (log 19). -/
def Obligations.OutcomeLinesFollowRunState : Prop :=
  (∀ s : State,
    (s.doneLine, s.haltedLine) =
      match s.runState with | .running => (false, false) | .done => (true, false) | .halted => (false, true)) ∧
  (∀ s t : State, step s = .next t → ¬ (s.rst = true ∧ s.input.head? = some .releaseReset) →
    (s.haltedLine = true → t.haltedLine = true) ∧
    (s.doneLine = true → t.doneLine = true ∨ t.haltedLine = true))

/-- When the lines rise (R166): `halted` in a step that takes a command and latches an error, `done` in a step that takes
an EOS in RUNNING. That a reset inside a command raises neither line is the model's choice (log 8). -/
def Obligations.OutcomeLinesRiseOnRaiseAndEos : Prop :=
  ∀ s t : State, step s = .next t →
    (s.haltedLine = false → t.haltedLine = true →
      t.errKind ≠ .none ∧ s.rst = false ∧ ∃ w, s.input.head? = some (.command w)) ∧
    (s.doneLine = false → t.doneLine = true →
      s.runState = .running ∧ s.rst = false ∧ ∃ w, s.input.head? = some (.command w) ∧ decode w = .eos)

/-- Reset inside a command (R182): every prefix of the output the command would have before a sink that takes every
byte, as far as the sink that is there has room for it, and nothing but such a prefix, can have reached the sink when
`rst` is asserted; the command is otherwise abandoned. So the reset is a way out of the hang of R187. That the other
registers keep their values until the reset ends is the model's choice (log 8). -/
def Obligations.MidCommandResetAdmitsEveryPrefix : Prop :=
  ∀ (s : State) (w : Word), s.rst = false →
    ∃ t, exec (decode w) { s with sink := .always } = .next t ∧
      (∀ sent, (s.outLog ++ sent) <+: t.outLog → (∀ room, s.sink = .stallsAfter room → sent.length ≤ room) →
        ∃ n, step { s with input := .commandCutByReset w n :: s.input } =
          .next { s with outLog := s.outLog ++ sent, rst := true, sink := s.sink.after sent.length }) ∧
      (∀ n, ∃ sent, (s.outLog ++ sent) <+: t.outLog ∧ (∀ room, s.sink = .stallsAfter room → sent.length ≤ room) ∧
        step { s with input := .commandCutByReset w n :: s.input } =
          .next { s with outLog := s.outLog ++ sent, rst := true, sink := s.sink.after sent.length })

/-- A sink that stops for ever (R187): a flush whose output it takes completes as ever; one with more bytes than the
sink has room for never completes. Stated for EOS and for the CHAR that fills a chunk. -/
def Obligations.StalledSinkNeverCompletes : Prop :=
  ∀ (s : State) (room : Nat) (bytes : List Byte), s.runState = .running → s.sink = .stallsAfter room →
    (s.chunkLen ≠ 0#4 → decodeChunk s.chunk = .ok bytes →
      ((formatOut s.hexEn bytes).length ≤ room → exec .eos s =
        .next { s with chunkLen := 0#4, runState := .done, outLog := s.outLog ++ formatOut s.hexEn bytes,
                       sink := .stallsAfter (room - (formatOut s.hexEn bytes).length) }) ∧
      (room < (formatOut s.hexEn bytes).length →
        exec .eos s = .fault (.sinkStalled ((formatOut s.hexEn bytes).take room)))) ∧
    (∀ c, s.chunkLen = 7#4 → isWhitespace c = false → decodeChunk (s.chunk ++ [c]) = .ok bytes →
      ((formatOut s.hexEn bytes).length ≤ room →
        ∃ t, exec (.char c) s = .next t ∧ t.outLog = s.outLog ++ formatOut s.hexEn bytes ∧ t.chunkLen = 0#4 ∧
          t.runState = .running) ∧
      (room < (formatOut s.hexEn bytes).length →
        exec (.char c) s = .fault (.sinkStalled ((formatOut s.hexEn bytes).take room))))

/-! ## Frames over all commands -/

/-- No command writes HEX_EN (R28), a pin or what the host does next, or resets anything: whatever the command, these
are unchanged in its next state. -/
def Obligations.CommandsKeepConfiguration : Prop :=
  ∀ (i : Instr) (s t : State), exec i s = .next t →
    t = { s with buf := t.buf, chunkLen := t.chunkLen, runState := t.runState, errKind := t.errKind,
                 errPayload := t.errPayload, outLog := t.outLog, sink := t.sink }

/-- A raise is precise (R161, R127): a command that halts the block puts no byte out and writes ERR_KIND, ERR_PAYLOAD
and RUN_STATE, and else nothing but, when a flush raised, CHUNK_LEN, which is then 0. The one allowance is BUF[7] of the
CHAR that filled the chunk, which holds its character: R161 by itself would not have it written, and that it is, is the
model's reading (log 12). EOS leaves all of BUF as it is. -/
def Obligations.FailingCommandPutsNothingOut : Prop :=
  ∀ (i : Instr) (s t : State), exec i s = .next t → s.runState ≠ .halted → t.runState = .halted →
    t.outLog = s.outLog ∧ t.errKind ≠ .none ∧
    (t = { s with runState := .halted, errKind := t.errKind, errPayload := t.errPayload } ∨
     ((t.errKind = .invalidData ∨ t.errKind = .invalidSize) ∧
      t = { s with buf := t.buf, chunkLen := 0#4, runState := .halted, errKind := t.errKind,
                   errPayload := t.errPayload } ∧
      ((i = .eos ∧ t.buf = s.buf) ∨
       (∃ c, i = .char c ∧ s.chunkLen = 7#4 ∧ t.buf[7] = c ∧ ∀ k, ∀ h : k < 7, t.buf[k] = s.buf[k]))))

/-- What a command puts out (R141, R142, R143): either nothing, or the bytes of a flush that decoded, as hex when HEX_EN
is 1, with nothing before, between or after; the flush is that of EOS, or of the CHAR that made the chunk full, and the
sink has taken exactly those bytes. -/
def Obligations.OutputIsThatOfAFlush : Prop :=
  ∀ (i : Instr) (s t : State), exec i s = .next t →
    (t.outLog = s.outLog ∧ t.sink = s.sink) ∨
    (∃ ch bytes, decodeChunk ch = .ok bytes ∧ t.runState ≠ .halted ∧ t.chunkLen = 0#4 ∧
      t.outLog = s.outLog ++ (if s.hexEn then toHex bytes else bytes) ∧
      (∀ room, s.sink = .stallsAfter room →
        t.sink = .stallsAfter (room - (if s.hexEn then toHex bytes else bytes).length)) ∧
      ((i = .eos ∧ ch = s.chunk) ∨ (∃ c, i = .char c ∧ ch = (s.append c).chunk ∧ (s.append c).chunkLen = 8#4)))

/-- The error registers (R27, R44): a command that changes ERR_KIND or ERR_PAYLOAD is taken outside HALTED and leaves
the block in HALTED, and a command that enters DONE is an EOS taken in RUNNING. -/
def Obligations.FlagsWrittenOnlyAsListed : Prop :=
  ∀ (i : Instr) (s t : State), exec i s = .next t →
    (t.errKind ≠ s.errKind ∨ t.errPayload ≠ s.errPayload → s.runState ≠ .halted ∧ t.runState = .halted) ∧
    (t.runState ≠ s.runState →
      (t.runState = .halted) ∨ (t.runState = .done ∧ s.runState = .running ∧ i = .eos))

/-- OUT_LOG (R41): no step but the one that ends a reset removes or reorders a byte of it. -/
def Obligations.OutLogOnlyGrows : Prop :=
  ∀ s t : State, step s = .next t → ¬ (s.rst = true ∧ s.input.head? = some .releaseReset) → s.outLog <+: t.outLog

/-! ## Invariants -/

/-- The state after reset meets the invariant, with the strap at either level and whatever BUF holds. -/
def Obligations.ResetMeetsInvariant : Prop :=
  (∀ pin buf, (State.resetWith pin buf).Inv) ∧ State.reset.Inv

/-- Every step keeps the invariant: CHUNK_LEN at most 7, the three clauses of R27, no whitespace in the chunk, payloads
as R26 lists them, and hex text in the output of a hex run. -/
def Obligations.StepKeepsInvariant : Prop :=
  ∀ s t : State, s.Inv → step s = .next t → t.Inv

/-- R27 by itself: its three clauses are kept by every step from every state that meets them; ERR_KIND and ERR_PAYLOAD
are written only by a raise, which is taken only in RUNNING or DONE, and are cleared only by reset, in the step that
ends it (R180). -/
def Obligations.ErrorRegistersInvariant : Prop :=
  ∀ s t : State, s.ErrorInv → step s = .next t →
    t.ErrorInv ∧
    (t.errKind ≠ s.errKind ∨ t.errPayload ≠ s.errPayload →
      (s.runState ≠ .halted ∧ t.runState = .halted ∧ t.errKind ≠ .none) ∨
      (s.rst = true ∧ s.input.head? = some .releaseReset ∧ t.errKind = .none ∧ t.errPayload = 0x00#8))

/-! ## Isolation: the dead slots of BUF -/

/-- The BUF slots at index CHUNK_LEN and above are never observable (R23): two states that differ in them alone show the
same STATUS, and a step takes them to outcomes that differ in dead slots alone. -/
def Obligations.DeadSlotsAreInvisible : Prop :=
  ∀ s t : State, SameButDeadSlots s t → s.status = t.status ∧ SameOutcome (step s) (step t)

/-! ## Runs and streams -/

/-- The commands waiting at the port take effect one at a time, in order, each complete before the next (R60): stepping
through them is running their words one after the other. -/
def Obligations.StepsRunTheWordsInOrder : Prop :=
  ∀ (ws : List Word) (s : State) (rest : List HostEvent), s.rst = false → s.input = ws.map .command ++ rest →
    runSteps ws.length s = runWords ws { s with input := rest }

/-- Whitespace is transparent (R109): streams with the same non-whitespace characters, from any state but DONE, have the
same outcome in every part of the state, whatever the sink does. -/
def Obligations.WhitespaceIsTransparent : Prop :=
  ∀ (cs ds : List Byte) (s : State), s.runState ≠ .done → dataBytes cs = dataBytes ds →
    runWords (streamWords cs) s = runWords (streamWords ds) s

/-- A whole stream (R108, R127, R128): its non-whitespace characters are decoded in chunks of eight and one leftover, in
order and each once, up to the first chunk that fails; the output is that of the chunks before it, and its error is the
one latched; with no failing chunk the run ends in DONE. -/
def Obligations.StreamIsDecodedByChunks : Prop :=
  ∀ (cs : List Byte) (s : State), s.StartsStream →
    ∃ t, runWords (streamWords cs) s = .next t ∧ t.chunkLen = 0#4 ∧
      t.outLog = (streamResult s.hexEn (chunksOf8 (dataBytes cs))).1 ∧
      match (streamResult s.hexEn (chunksOf8 (dataBytes cs))).2 with
      | none => t.runState = .done ∧ t.errKind = .none ∧ t.errPayload = 0x00#8
      | some (kind, payload) => t.runState = .halted ∧ t.errKind = kind ∧ t.errPayload = payload

/-- When a run ends in DONE, and its output (R110): exactly when the number of non-whitespace characters is 0, 2, 4, 5
or 7 modulo 8 and every one is in the alphabet; OUT_LOG is then the output of the chunks, one after the other. -/
def Obligations.DoneExactlyForValidStreams : Prop :=
  ∀ (cs : List Byte) (s : State), s.StartsStream →
    ∃ t, runWords (streamWords cs) s = .next t ∧
      (t.runState = .done ↔
        (dataBytes cs).length % 8 ∈ [0, 2, 4, 5, 7] ∧ ∀ c ∈ dataBytes cs, validChar c = true) ∧
      (t.runState = .done →
        ∃ blocks : List (List Byte), (chunksOf8 (dataBytes cs)).map decodeChunk = blocks.map .ok ∧
          t.outLog = blocks.flatMap fun bytes => if s.hexEn then toHex bytes else bytes)

/-- Hex mode is the hex encoding of raw mode (R144): for the same words, with a sink that takes every byte, a run with
HEX_EN = 1 ends in the state of the run with HEX_EN = 0, but that OUT_LOG is its hex text. -/
def Obligations.HexRunIsHexOfRawRun : Prop :=
  ∀ (ws : List Word) (s : State), s.hexEn = false → s.sink = .always →
    ∃ t, runWords ws s = .next t ∧
      runWords ws { s with hexEn := true, outLog := toHex s.outLog } =
        .next { t with hexEn := true, outLog := toHex t.outLog }
end

