-- ==== Sys2Proof/Laws/DecodeEngine.lean ====
section
/-! SUPPORT. What `decode` and its steps answer. -/

namespace Sys2Proof.Machine

open Sys2Proof

/-- The lengths a chunk may have, and the bytes each gives (R121). -/
theorem nbytes_eq_some {len n : Nat} (h : nbytes len = some n) :
    (len = 0 ∧ n = 0) ∨ (len = 2 ∧ n = 1) ∨ (len = 4 ∧ n = 2) ∨ (len = 5 ∧ n = 3) ∨ (len = 7 ∧ n = 4) ∨
      (len = 8 ∧ n = 5) := by
  unfold nbytes at h
  split_ifs at h <;> simp_all

theorem nbytes_eq_none {len : Nat} (h : nbytes len = none) :
    len ≠ 0 ∧ len ≠ 2 ∧ len ≠ 4 ∧ len ≠ 5 ∧ len ≠ 7 ∧ len ≠ 8 := by
  unfold nbytes at h
  split_ifs at h
  simp_all

/-- Step 2 succeeds exactly on chunks all of whose characters are in the alphabet. -/
theorem lookupAll_ok {ch : List Byte} {vs : List Symbol} (h : lookupAll ch = .ok vs) :
    vs.length = ch.length ∧ (∀ c ∈ ch, validChar c = true) ∧ ch.map decLut = vs.map some := by
  induction ch generalizing vs with
  | nil => simp_all [lookupAll]
  | cons c cs ih =>
    unfold lookupAll at h
    cases hc : decLut c with
    | none => simp [hc] at h
    | some v =>
      cases hcs : lookupAll cs with
      | error bad => simp [hc, hcs] at h
      | ok us =>
        obtain ⟨h₁, h₂, h₃⟩ := ih hcs
        simp only [hc, hcs, Except.ok.injEq] at h
        subst h
        simp [h₁, h₃, hc, validChar]
        exact h₂

/-- Step 2 fails with the first character outside the alphabet (R123). -/
theorem lookupAll_error {ch : List Byte} {bad : Byte} (h : lookupAll ch = .error bad) :
    ∃ good rest, ch = good ++ bad :: rest ∧ (∀ c ∈ good, validChar c = true) ∧ validChar bad = false := by
  induction ch with
  | nil => simp [lookupAll] at h
  | cons c cs ih =>
    unfold lookupAll at h
    cases hc : decLut c with
    | none =>
      simp only [hc, Except.error.injEq] at h
      subst h
      exact ⟨[], cs, rfl, by simp, by simp [validChar, hc]⟩
    | some v =>
      cases hcs : lookupAll cs with
      | ok us => simp [hc, hcs] at h
      | error b =>
        simp only [hc, hcs, Except.error.injEq] at h
        subst h
        obtain ⟨good, rest, h₁, h₂, h₃⟩ := ih hcs
        refine ⟨c :: good, rest, by simp [h₁], ?_, h₃⟩
        simp only [List.mem_cons, forall_eq_or_imp]
        exact ⟨by simp [validChar, hc], h₂⟩

@[simp] theorem length_repack (vs : List Symbol) (n : Nat) : (repack vs n).length = n := by
  simp [repack]

/-- V with one symbol more (R125). -/
theorem concatSymbols_append (vs : List Symbol) (v : Symbol) :
    concatSymbols (vs ++ [v]) = (concatSymbols vs <<< 5) ||| v.setWidth 40 := by
  simp [concatSymbols]

/-- The bits of V, counted from its low end: five of the last symbol, five of the one before it, and so on (R124). -/
theorem concatSymbols_getLsbD (vs : List Symbol) :
    ∀ j < 40, (concatSymbols vs).getLsbD j = (vs.reverse.getD (j / 5) 0#5).getLsbD (j % 5) := by
  induction vs using List.reverseRecOn with
  | nil => intro j _; simp [concatSymbols]
  | append_singleton vs v ih =>
    intro j hj
    rw [concatSymbols_append]
    by_cases h5 : j < 5
    · have h1 : j / 5 = 0 := by omega
      have h2 : j % 5 = j := by omega
      simp [h1, h2, h5, hj]
    · have h1 : j / 5 = (j - 5) / 5 + 1 := by omega
      have h2 : j % 5 = (j - 5) % 5 := by omega
      have h3 : v.getLsbD j = false := BitVec.getLsbD_of_ge _ _ (by omega)
      simp only [BitVec.getLsbD_or, BitVec.getLsbD_shiftLeft, BitVec.getLsbD_setWidth, hj, h5, h3,
        ih (j - 5) (by omega), h1, h2, List.reverse_append, List.reverse_cons, List.reverse_nil, List.nil_append,
        List.cons_append, List.getD_cons_succ]
      simp

/-- Everything `decode` can answer: an error of size at a length with no NBYTES; an error of data with the chunk's first
character outside the alphabet; else the repacked bytes (R125). -/
theorem decodeChunk_cases (ch : List Byte) :
    (nbytes ch.length = none ∧ decodeChunk ch = .err .invalidSize (sizePayload ch.length)) ∨
    (∃ n bad, nbytes ch.length = some n ∧ lookupAll ch = .error bad ∧ decodeChunk ch = .err .invalidData bad) ∨
    (∃ n vs, nbytes ch.length = some n ∧ lookupAll ch = .ok vs ∧ decodeChunk ch = .ok (repack vs n)) := by
  unfold decodeChunk
  cases hn : nbytes ch.length with
  | none => simp
  | some n => cases hl : lookupAll ch <;> simp

/-- An error of `decode` is of one of two kinds, with the payload R26 gives it. -/
theorem decodeChunk_err {ch : List Byte} {kind : ErrKind} {payload : Byte} (h : decodeChunk ch = .err kind payload) :
    (kind = .invalidSize ∧ payload = sizePayload ch.length ∧ nbytes ch.length = none) ∨
    (kind = .invalidData ∧ payload ∈ ch ∧ validChar payload = false) := by
  rcases decodeChunk_cases ch with ⟨hn, hd⟩ | ⟨n, bad, _, hl, hd⟩ | ⟨n, vs, _, _, hd⟩
  · simp_all
  · obtain ⟨good, rest, rfl, _, hbad⟩ := lookupAll_error hl
    rw [hd] at h
    cases h
    exact .inr ⟨rfl, by simp, hbad⟩
  · simp_all

end Sys2Proof.Machine
end

