-- ==== Sys2Proof/Laws/State.lean ====
section
/-! SUPPORT. One lemma per field for each named update of the state, and the chunk after each of them. -/

namespace Sys2Proof.Machine

open Sys2Proof

variable (s : State)

/-! ### `State.append` -/

@[simp] theorem append_buf (c : Byte) : (s.append c).buf = s.buf.setIfInBounds s.chunkLen.toNat c := rfl
@[simp] theorem append_chunkLen (c : Byte) : (s.append c).chunkLen = s.chunkLen + 1#4 := rfl
@[simp] theorem append_runState (c : Byte) : (s.append c).runState = s.runState := rfl
@[simp] theorem append_errKind (c : Byte) : (s.append c).errKind = s.errKind := rfl
@[simp] theorem append_errPayload (c : Byte) : (s.append c).errPayload = s.errPayload := rfl
@[simp] theorem append_hexEn (c : Byte) : (s.append c).hexEn = s.hexEn := rfl
@[simp] theorem append_outLog (c : Byte) : (s.append c).outLog = s.outLog := rfl
@[simp] theorem append_rst (c : Byte) : (s.append c).rst = s.rst := rfl
@[simp] theorem append_hexEnPin (c : Byte) : (s.append c).hexEnPin = s.hexEnPin := rfl
@[simp] theorem append_input (c : Byte) : (s.append c).input = s.input := rfl
@[simp] theorem append_sink (c : Byte) : (s.append c).sink = s.sink := rfl
@[simp] theorem append_resetCount (c : Byte) : (s.append c).resetCount = s.resetCount := rfl

/-! ### `State.emptyChunk` -/

@[simp] theorem emptyChunk_buf : s.emptyChunk.buf = s.buf := rfl
@[simp] theorem emptyChunk_chunkLen : s.emptyChunk.chunkLen = 0#4 := rfl
@[simp] theorem emptyChunk_runState : s.emptyChunk.runState = s.runState := rfl
@[simp] theorem emptyChunk_errKind : s.emptyChunk.errKind = s.errKind := rfl
@[simp] theorem emptyChunk_errPayload : s.emptyChunk.errPayload = s.errPayload := rfl
@[simp] theorem emptyChunk_hexEn : s.emptyChunk.hexEn = s.hexEn := rfl
@[simp] theorem emptyChunk_outLog : s.emptyChunk.outLog = s.outLog := rfl
@[simp] theorem emptyChunk_rst : s.emptyChunk.rst = s.rst := rfl
@[simp] theorem emptyChunk_hexEnPin : s.emptyChunk.hexEnPin = s.hexEnPin := rfl
@[simp] theorem emptyChunk_input : s.emptyChunk.input = s.input := rfl
@[simp] theorem emptyChunk_sink : s.emptyChunk.sink = s.sink := rfl
@[simp] theorem emptyChunk_resetCount : s.emptyChunk.resetCount = s.resetCount := rfl

/-! ### `State.markDone` -/

@[simp] theorem markDone_buf : s.markDone.buf = s.buf := rfl
@[simp] theorem markDone_chunkLen : s.markDone.chunkLen = s.chunkLen := rfl
@[simp] theorem markDone_runState : s.markDone.runState = .done := rfl
@[simp] theorem markDone_errKind : s.markDone.errKind = s.errKind := rfl
@[simp] theorem markDone_errPayload : s.markDone.errPayload = s.errPayload := rfl
@[simp] theorem markDone_hexEn : s.markDone.hexEn = s.hexEn := rfl
@[simp] theorem markDone_outLog : s.markDone.outLog = s.outLog := rfl
@[simp] theorem markDone_rst : s.markDone.rst = s.rst := rfl
@[simp] theorem markDone_hexEnPin : s.markDone.hexEnPin = s.hexEnPin := rfl
@[simp] theorem markDone_input : s.markDone.input = s.input := rfl
@[simp] theorem markDone_sink : s.markDone.sink = s.sink := rfl
@[simp] theorem markDone_resetCount : s.markDone.resetCount = s.resetCount := rfl

/-! ### `State.latch` -/

@[simp] theorem latch_buf (kind : ErrKind) (payload : Byte) : (s.latch kind payload).buf = s.buf := rfl
@[simp] theorem latch_chunkLen (kind : ErrKind) (payload : Byte) : (s.latch kind payload).chunkLen = s.chunkLen := rfl
@[simp] theorem latch_runState (kind : ErrKind) (payload : Byte) : (s.latch kind payload).runState = .halted := rfl
@[simp] theorem latch_errKind (kind : ErrKind) (payload : Byte) : (s.latch kind payload).errKind = kind := rfl
@[simp] theorem latch_errPayload (kind : ErrKind) (payload : Byte) : (s.latch kind payload).errPayload = payload := rfl
@[simp] theorem latch_hexEn (kind : ErrKind) (payload : Byte) : (s.latch kind payload).hexEn = s.hexEn := rfl
@[simp] theorem latch_outLog (kind : ErrKind) (payload : Byte) : (s.latch kind payload).outLog = s.outLog := rfl
@[simp] theorem latch_rst (kind : ErrKind) (payload : Byte) : (s.latch kind payload).rst = s.rst := rfl
@[simp] theorem latch_hexEnPin (kind : ErrKind) (payload : Byte) : (s.latch kind payload).hexEnPin = s.hexEnPin := rfl
@[simp] theorem latch_input (kind : ErrKind) (payload : Byte) : (s.latch kind payload).input = s.input := rfl
@[simp] theorem latch_sink (kind : ErrKind) (payload : Byte) : (s.latch kind payload).sink = s.sink := rfl
@[simp] theorem latch_resetCount (kind : ErrKind) (payload : Byte) : (s.latch kind payload).resetCount = s.resetCount := rfl

/-! ### `State.put` -/

@[simp] theorem put_buf (bytes : List Byte) (sink : Sink) : (s.put bytes sink).buf = s.buf := rfl
@[simp] theorem put_chunkLen (bytes : List Byte) (sink : Sink) : (s.put bytes sink).chunkLen = s.chunkLen := rfl
@[simp] theorem put_runState (bytes : List Byte) (sink : Sink) : (s.put bytes sink).runState = s.runState := rfl
@[simp] theorem put_errKind (bytes : List Byte) (sink : Sink) : (s.put bytes sink).errKind = s.errKind := rfl
@[simp] theorem put_errPayload (bytes : List Byte) (sink : Sink) : (s.put bytes sink).errPayload = s.errPayload := rfl
@[simp] theorem put_hexEn (bytes : List Byte) (sink : Sink) : (s.put bytes sink).hexEn = s.hexEn := rfl
@[simp] theorem put_outLog (bytes : List Byte) (sink : Sink) : (s.put bytes sink).outLog = s.outLog ++ bytes := rfl
@[simp] theorem put_rst (bytes : List Byte) (sink : Sink) : (s.put bytes sink).rst = s.rst := rfl
@[simp] theorem put_hexEnPin (bytes : List Byte) (sink : Sink) : (s.put bytes sink).hexEnPin = s.hexEnPin := rfl
@[simp] theorem put_input (bytes : List Byte) (sink : Sink) : (s.put bytes sink).input = s.input := rfl
@[simp] theorem put_sink (bytes : List Byte) (sink : Sink) : (s.put bytes sink).sink = sink := rfl
@[simp] theorem put_resetCount (bytes : List Byte) (sink : Sink) : (s.put bytes sink).resetCount = s.resetCount := rfl

/-! ### The chunk -/

@[simp] theorem emptyChunk_chunk : s.emptyChunk.chunk = [] := rfl

@[simp] theorem markDone_chunk : s.markDone.chunk = s.chunk := rfl

@[simp] theorem latch_chunk (kind : ErrKind) (payload : Byte) : (s.latch kind payload).chunk = s.chunk := rfl

@[simp] theorem put_chunk (bytes : List Byte) (sink : Sink) : (s.put bytes sink).chunk = s.chunk := rfl

/-- Below 16 CHUNK_LEN + 1 does not wrap (R130). -/
theorem append_chunkLen_toNat (c : Byte) (h : s.chunkLen.toNat ≤ 7) :
    (s.append c).chunkLen.toNat = s.chunkLen.toNat + 1 := by
  simp only [append_chunkLen]; bv_omega

/-- The chunk has CHUNK_LEN characters, and never more than BUF has slots. -/
theorem length_chunk : s.chunk.length = min s.chunkLen.toNat 8 := by
  simp [State.chunk]

/-- A character appended in range is the last of the chunk (R101). -/
theorem append_chunk (c : Byte) (h : s.chunkLen.toNat ≤ 7) : (s.append c).chunk = s.chunk ++ [c] := by
  have hl := append_chunkLen_toNat s c h
  apply List.ext_getElem
  · simp [length_chunk]; omega
  · intro i h₁ h₂
    simp only [length_chunk, hl] at h₁
    by_cases hi : i = s.chunkLen.toNat
    · subst hi
      simp [State.chunk]
    · have : i < s.chunkLen.toNat := by omega
      simp [State.chunk, this, Ne.symm hi, show i < 8 by omega]

end Sys2Proof.Machine
end

