-- ==== Sys2Proof/Laws/Ops.lean ====
section
/-! SUPPORT. One lemma for each shared operation: everything it can do. -/

namespace Sys2Proof.Machine

open Sys2Proof

/-! ## Effects -/

@[simp] theorem goesOn_andThen (s : State) (rest : State → Effect) : (Effect.goesOn s).andThen rest = rest s := rfl

@[simp] theorem ends_andThen (s : State) (rest : State → Effect) : (Effect.ends s).andThen rest = .ends s := rfl

@[simp] theorem stuck_andThen (r : Fault) (rest : State → Effect) : (Effect.stuck r).andThen rest = .stuck r := rfl

@[simp] theorem goesOn_outcome (s : State) : (Effect.goesOn s).outcome = .next s := rfl

@[simp] theorem ends_outcome (s : State) : (Effect.ends s).outcome = .next s := rfl

@[simp] theorem stuck_outcome (r : Fault) : (Effect.stuck r).outcome = .fault r := rfl

/-- A command completes when its pseudocode runs to its end or raises. -/
theorem outcome_eq_next {e : Effect} {t : State} (h : e.outcome = .next t) : e = .goesOn t ∨ e = .ends t := by
  cases e <;> simp_all [Effect.outcome]

/-! ## The sink -/

@[simp] theorem always_takes (n : Nat) : Sink.always.takes n = n := rfl

@[simp] theorem always_after (n : Nat) : Sink.always.after n = .always := rfl

@[simp] theorem stallsAfter_takes (room n : Nat) : (Sink.stallsAfter room).takes n = min room n := rfl

@[simp] theorem stallsAfter_after (room n : Nat) : (Sink.stallsAfter room).after n = .stallsAfter (room - n) := rfl

/-- Everything `emit_all` can do: the bytes go out, or the sink has stopped with fewer of them taken. -/
theorem emitAll_cases (bytes : List Byte) (s : State) :
    emitAll bytes s = .goesOn (s.put bytes (s.sink.after bytes.length)) ∨
    ∃ room, s.sink = .stallsAfter room ∧ room < bytes.length ∧
      emitAll bytes s = .stuck (.sinkStalled (bytes.take room)) := by
  unfold emitAll
  cases hs : s.sink with
  | always => simp
  | stallsAfter room =>
    by_cases h : bytes.length ≤ room
    · simp [h]
    · refine .inr ⟨room, rfl, by omega, ?_⟩
      have : min room bytes.length = room := by omega
      simp only [stallsAfter_takes, this]
      rw [if_neg (by omega)]

/-- A sink that takes every byte lets every emission complete. -/
theorem emitAll_always (bytes : List Byte) (s : State) (h : s.sink = .always) :
    emitAll bytes s = .goesOn (s.put bytes .always) := by
  simp [emitAll, h]

/-! ## FLUSH -/

/-- Everything FLUSH can do (R120): raise the error of a failing decode with nothing put out, put out the bytes of a
successful one, or stay stuck in putting them out. CHUNK_LEN is 0 after it. -/
theorem flush_cases (s : State) :
    (∃ kind payload, decodeChunk s.chunk = .err kind payload ∧ flush s = .ends (s.emptyChunk.latch kind payload)) ∨
    (∃ bytes, decodeChunk s.chunk = .ok bytes ∧
      (flush s = .goesOn (s.emptyChunk.put (formatOut s.hexEn bytes)
          (s.sink.after (formatOut s.hexEn bytes).length)) ∨
        ∃ room, s.sink = .stallsAfter room ∧ room < (formatOut s.hexEn bytes).length ∧
          flush s = .stuck (.sinkStalled ((formatOut s.hexEn bytes).take room)))) := by
  unfold flush
  cases hd : decodeChunk s.chunk with
  | err kind payload => exact .inl ⟨kind, payload, rfl, rfl⟩
  | ok bytes => exact .inr ⟨bytes, rfl, emitAll_cases _ s.emptyChunk⟩

/-- A flush of a chunk that does not decode raises and completes, whatever the sink does (R127). -/
theorem flush_of_err {s : State} {kind : ErrKind} {payload : Byte} (h : decodeChunk s.chunk = .err kind payload) :
    flush s = .ends (s.emptyChunk.latch kind payload) := by
  rw [flush, h]
  rfl

/-- A flush of a chunk that decodes completes before a sink that takes every byte. -/
theorem flush_of_ok {s : State} {bytes : List Byte} (h : decodeChunk s.chunk = .ok bytes) (hs : s.sink = .always) :
    flush s = .goesOn (s.emptyChunk.put (formatOut s.hexEn bytes) .always) := by
  rw [flush, h]
  exact emitAll_always _ _ hs

/-! ## The HALTED test -/

/-- In HALTED a command has no effect, whatever it is. -/
theorem unlessHalted_of_halted (command : State → Effect) {s : State} (h : s.runState = .halted) :
    unlessHalted command s = .next s := by
  simp [unlessHalted, h]

/-- Outside HALTED a command has the outcome of its pseudocode. -/
theorem unlessHalted_of_live (command : State → Effect) {s : State} (h : s.runState ≠ .halted) :
    unlessHalted command s = (command s).outcome := by
  simp [unlessHalted, h]

end Sys2Proof.Machine
end

