-- ==== Sys2Proof/Laws/Commands.lean ====
section
/-! SUPPORT. One case analysis of the commands: everything `exec` can answer. Later proofs cite it and unfold nothing. -/

namespace Sys2Proof.Machine

open Sys2Proof

/-- What a command can do outside HALTED. -/
inductive CommandEffect (i : Instr) (s : State) : Host.Outcome State Fault Refusal → Prop where
  /-- A `raise` of the command's own: OTHER for a protocol error and EXTERR, WRITE_FAILED for SINKFAIL. -/
  | raised (kind : ErrKind) (payload : Byte) (h : kind = .other ∨ kind = .writeFailed) :
      CommandEffect i s (.next (s.latch kind payload))
  /-- CHAR of a whitespace byte in RUNNING. -/
  | dropped (c : Byte) (hi : i = .char c) (hr : s.runState = .running) (hw : isWhitespace c = true) :
      CommandEffect i s (.next s)
  /-- CHAR of any other byte in RUNNING that does not fill the chunk. -/
  | appended (c : Byte) (hi : i = .char c) (hr : s.runState = .running) (hw : isWhitespace c = false)
      (hl : (s.append c).chunkLen ≠ 8#4) : CommandEffect i s (.next (s.append c))
  /-- CHAR that fills the chunk in RUNNING: it is as its flush. -/
  | filled (c : Byte) (hi : i = .char c) (hr : s.runState = .running) (hw : isWhitespace c = false)
      (hl : (s.append c).chunkLen = 8#4) : CommandEffect i s (flush (s.append c)).outcome
  /-- EOS in RUNNING with an empty chunk. -/
  | ended (hi : i = .eos) (hr : s.runState = .running) (hl : s.chunkLen = 0#4) : CommandEffect i s (.next s.markDone)
  /-- EOS in RUNNING with a chunk: its flush, and then DONE. -/
  | endedWithFlush (hi : i = .eos) (hr : s.runState = .running) (hl : s.chunkLen ≠ 0#4) :
      CommandEffect i s ((flush s).andThen fun t => .goesOn t.markDone).outcome

theorem running_of_live {s : State} (h : s.runState ≠ .halted) (hd : s.runState ≠ .done) : s.runState = .running := by
  cases hs : s.runState <;> simp_all

/-- Everything a command can do outside HALTED. -/
theorem exec_cases (i : Instr) (s : State) (h : s.runState ≠ .halted) : CommandEffect i s (exec i s) := by
  cases i with
  | char c =>
    simp only [exec, execChar, unlessHalted_of_live _ h, charEffect, flushIfFull]
    split_ifs with hd hw hl
    · exact .raised _ _ (.inl rfl)
    · exact .dropped c rfl (running_of_live h hd) hw
    · exact .filled c rfl (running_of_live h hd) (by simpa using hw) hl
    · exact .appended c rfl (running_of_live h hd) (by simpa using hw) hl
  | eos =>
    simp only [exec, execEos, unlessHalted_of_live _ h, eosEffect, flushIfAny]
    split_ifs with hd hl
    · exact .raised _ _ (.inl rfl)
    · exact .endedWithFlush rfl (running_of_live h hd) hl
    · exact .ended rfl (running_of_live h hd) (by simpa using hl)
  | sinkfail code =>
    simp only [exec, execSinkfail, unlessHalted_of_live _ h]
    exact .raised _ _ (.inr rfl)
  | exterr code =>
    simp only [exec, execExterr, unlessHalted_of_live _ h]
    exact .raised _ _ (.inl rfl)
  | reserved47 op =>
    simp only [exec, execReserved47, unlessHalted_of_live _ h]
    exact .raised _ _ (.inl rfl)
  | reserved8F op =>
    simp only [exec, execReserved8F, unlessHalted_of_live _ h]
    exact .raised _ _ (.inl rfl)

/-- In HALTED no command has an effect (R162). -/
theorem exec_of_halted (i : Instr) {s : State} (h : s.runState = .halted) : exec i s = .next s := by
  cases i <;> exact unlessHalted_of_halted _ h

/-- CHAR in RUNNING (R100). -/
theorem exec_char_of_running {s : State} (c : Byte) (h : s.runState = .running) :
    exec (.char c) s = if isWhitespace c then .next s else (flushIfFull (s.append c)).outcome := by
  simp only [exec, execChar, unlessHalted, charEffect, h]
  by_cases hw : isWhitespace c <;> simp [hw]

/-- EOS in RUNNING (R105). -/
theorem exec_eos_of_running {s : State} (h : s.runState = .running) :
    exec .eos s = ((flushIfAny s).andThen fun t => .goesOn t.markDone).outcome := by
  simp [exec, execEos, unlessHalted, eosEffect, h]

/-- Everything a command that completes can do: one of six changes of the state. -/
theorem exec_next_cases {i : Instr} {s t : State} (h : exec i s = .next t) :
    t = s ∨
    (s.runState ≠ .halted ∧ ∃ kind payload, (kind = .other ∨ kind = .writeFailed) ∧ t = s.latch kind payload) ∨
    (s.runState = .running ∧ ∃ c, i = .char c ∧ isWhitespace c = false ∧ (s.append c).chunkLen ≠ 8#4 ∧
      t = s.append c) ∨
    (s.runState = .running ∧ i = .eos ∧ s.chunkLen = 0#4 ∧ t = s.markDone) ∨
    (∃ r kind payload, s.runState = .running ∧ decodeChunk r.chunk = .err kind payload ∧
      t = r.emptyChunk.latch kind payload ∧
      ((i = .eos ∧ s.chunkLen ≠ 0#4 ∧ r = s) ∨
        ∃ c, i = .char c ∧ isWhitespace c = false ∧ (s.append c).chunkLen = 8#4 ∧ r = s.append c)) ∨
    (∃ r bytes, s.runState = .running ∧ decodeChunk r.chunk = .ok bytes ∧
      ((i = .eos ∧ s.chunkLen ≠ 0#4 ∧ r = s ∧
          t = (r.emptyChunk.put (formatOut s.hexEn bytes) (s.sink.after (formatOut s.hexEn bytes).length)).markDone) ∨
        ∃ c, i = .char c ∧ isWhitespace c = false ∧ (s.append c).chunkLen = 8#4 ∧ r = s.append c ∧
          t = r.emptyChunk.put (formatOut s.hexEn bytes) (s.sink.after (formatOut s.hexEn bytes).length))) := by
  by_cases hh : s.runState = .halted
  · rw [exec_of_halted i hh] at h
    cases h
    exact .inl rfl
  have hc := exec_cases i s hh
  generalize ho : exec i s = o at hc h
  cases hc with
  | raised kind payload hk => cases h; exact .inr (.inl ⟨hh, kind, payload, hk, rfl⟩)
  | dropped c hi hr hw => cases h; exact .inl rfl
  | appended c hi hr hw hl => cases h; exact .inr (.inr (.inl ⟨hr, c, hi, hw, hl, rfl⟩))
  | ended hi hr hl => cases h; exact .inr (.inr (.inr (.inl ⟨hr, hi, hl, rfl⟩)))
  | filled c hi hr hw hl =>
    rcases flush_cases (s.append c) with ⟨k, p, hd, hf⟩ | ⟨bytes, hd, hf | ⟨room, _, _, hf⟩⟩ <;>
      rw [hf] at h <;> cases h
    · exact .inr (.inr (.inr (.inr (.inl ⟨_, k, p, hr, hd, rfl, .inr ⟨c, hi, hw, hl, rfl⟩⟩))))
    · exact .inr (.inr (.inr (.inr (.inr ⟨_, bytes, hr, hd, .inr ⟨c, hi, hw, hl, rfl, rfl⟩⟩))))
  | endedWithFlush hi hr hl =>
    rcases flush_cases s with ⟨k, p, hd, hf⟩ | ⟨bytes, hd, hf | ⟨room, _, _, hf⟩⟩ <;> rw [hf] at h <;> cases h
    · exact .inr (.inr (.inr (.inr (.inl ⟨_, k, p, hr, hd, rfl, .inl ⟨hi, hl, rfl⟩⟩))))
    · exact .inr (.inr (.inr (.inr (.inr ⟨_, bytes, hr, hd, .inl ⟨hi, hl, rfl, rfl⟩⟩))))

end Sys2Proof.Machine
end

