-- ==== Sys2Proof/Laws/Decode.lean ====
section
/-! SUPPORT. The fields of a command word as arithmetic, and of the words the encoder writes. -/

namespace Sys2Proof

theorem opOf_toNat (w : Word) : (opOf w).toNat = w.toNat / 4096 := by
  simp only [opOf, BitVec.extractLsb'_toNat, Nat.shiftRight_eq_div_pow]
  omega

theorem dataOf_toNat (w : Word) : (dataOf w).toNat = w.toNat % 256 := by
  simp [dataOf]

theorem cmdWord_toNat (op rsvd : BitVec 4) (data : Byte) :
    (cmdWord op rsvd data).toNat = 4096 * op.toNat + 256 * rsvd.toNat + data.toNat := by
  have h₁ := rsvd.isLt
  have h₂ := data.isLt
  rw [cmdWord, BitVec.toNat_append, BitVec.toNat_append,
    ← Nat.shiftLeft_add_eq_or_of_lt h₂, ← Nat.shiftLeft_add_eq_or_of_lt h₁,
    Nat.shiftLeft_eq, Nat.shiftLeft_eq]
  omega

@[simp] theorem opOf_cmdWord (op rsvd : BitVec 4) (data : Byte) : opOf (cmdWord op rsvd data) = op := by
  have h₁ := rsvd.isLt
  have h₂ := data.isLt
  apply BitVec.eq_of_toNat_eq
  rw [opOf_toNat, cmdWord_toNat]
  omega

@[simp] theorem dataOf_cmdWord (op rsvd : BitVec 4) (data : Byte) : dataOf (cmdWord op rsvd data) = data := by
  have h₂ := data.isLt
  apply BitVec.eq_of_toNat_eq
  rw [dataOf_toNat, cmdWord_toNat]
  omega

/-- The opcode map by the number OP is (R71). -/
theorem decodeFields_eq (op : BitVec 4) (data : Byte) :
    decodeFields op data =
      if op.toNat = 0 then .char data else if op.toNat = 1 then .eos else if op.toNat = 2 then .sinkfail data
      else if op.toNat = 3 then .exterr data else if op.toNat < 8 then .reserved47 op else .reserved8F op := by
  have h : ∀ k : BitVec 4, op = k ↔ op.toNat = k.toNat := fun k => BitVec.toNat_inj.symm
  simp only [decodeFields, h, BitVec.toNat_ofNat]

/-- The command of a word put together from its fields does not depend on RSVD. -/
theorem decode_cmdWord (op rsvd : BitVec 4) (data : Byte) : decode (cmdWord op rsvd data) = decodeFields op data := by
  simp [decode]

@[simp] theorem decode_encode_char (c : Byte) : decode (encode (.char c)) = .char c := by
  simp [encode, decode_cmdWord, decodeFields]

@[simp] theorem decode_encode_eos : decode (encode .eos) = .eos := by
  simp [encode, decode_cmdWord, decodeFields]

end Sys2Proof
end

