-- ==== Sys2Proof/Laws/Events.lean ====
section
/-! SUPPORT. Everything one step can do, by the event it takes. -/

namespace Sys2Proof.Machine

open Sys2Proof

theorem step_of_event {s : State} {e : HostEvent} {rest : List HostEvent} (h : s.input = e :: rest) :
    step s = handleEvent e { s with input := rest } := by
  simp [step, h]

/-- Everything a step that completes can do. `r` is the state with the event taken from the port. -/
theorem step_next_cases {s t : State} (h : step s = .next t) :
    (s.input = [] ∧ t = s) ∨
    ∃ e rest r, s.input = e :: rest ∧ r = { s with input := rest } ∧
      ((∃ w, e = .command w ∧ s.rst = false ∧ exec (decode w) r = .next t) ∨
        (∃ w n, e = .commandCutByReset w n ∧ s.rst = false ∧ t = abandonCommand (sentBeforeReset w n r) r) ∨
        (s.rst = true ∧ (∃ w, e = .command w ∨ ∃ n, e = .commandCutByReset w n) ∧ t = r) ∨
        (e = .assertReset ∧ t = { r with rst := true }) ∨
        (e = .releaseReset ∧ s.rst = true ∧ t = resetBlock r) ∨
        (e = .releaseReset ∧ s.rst = false ∧ t = r) ∨
        (∃ level, e = .driveHexEn level ∧ t = { r with hexEnPin := level })) := by
  cases hi : s.input with
  | nil =>
    simp only [step, hi] at h
    cases h
    exact .inl ⟨rfl, rfl⟩
  | cons e rest =>
    rw [step_of_event hi] at h
    refine .inr ⟨e, rest, _, rfl, rfl, ?_⟩
    cases hr : s.rst <;> cases e <;> simp_all [handleEvent, State.cmdReady]

end Sys2Proof.Machine
end

