-- ==== Sys2Proof/Laws/HexFormatter.lean ====
section
/-! SUPPORT. The shape of the formatter's output. -/

namespace Sys2Proof.Machine

open Sys2Proof

theorem toHex_cons (b : Byte) (bs : List Byte) : toHex (b :: bs) = hexOfByte b ++ toHex bs := rfl

theorem formatOut_false (bytes : List Byte) : formatOut false bytes = bytes := rfl

theorem formatOut_true (bytes : List Byte) : formatOut true bytes = toHex bytes := rfl

end Sys2Proof.Machine
end

