-- ==== Sys2Proof/Laws/PerInstr.lean ====
section
/-! SUPPORT. The families of statements made per instruction. -/

namespace Sys2Proof.Laws.TableRow

open Sys2Proof

/-- The word of a well-formed command is of the one row of opcode_table.json that has its mnemonic, and of no other. -/
def Statement (i : Instr) : Prop :=
  i.WellFormed → ∀ r ∈ opcodeRows, (r.holds (encode i) = true ↔ r.mnemonic = i.mnemonic)

/-- A word under a mask of opcode_table.json, as its OP decides it. -/
theorem rows_of_op (op rsvd : BitVec 4) (data : Byte) :
    opcodeRows.map (fun r => r.holds (cmdWord op rsvd data)) =
      [decide (op = 0#4), decide (op = 1#4), decide (op = 2#4), decide (op = 3#4),
        decide (4 ≤ op.toNat ∧ op.toNat ≤ 7), decide (8 ≤ op.toNat)] := by
  have h : ∀ m p : BitVec 4, (cmdWord op rsvd data &&& cmdWord m 0#4 0x00#8 = cmdWord p 0#4 0x00#8) ↔ op &&& m = p := by
    intro m p
    have hand : cmdWord op rsvd data &&& cmdWord m 0#4 0x00#8 = cmdWord (op &&& m) 0#4 0x00#8 := by
      apply BitVec.eq_of_getLsbD_eq
      intro i hi
      simp only [cmdWord, BitVec.getLsbD_and, BitVec.getLsbD_append]
      split_ifs <;> simp
    rw [hand]
    constructor
    · intro he
      simpa using congrArg opOf he
    · rintro rfl
      rfl
  have e : ∀ p m : BitVec 4, (OpcodeRow.holds ⟨"", cmdWord p 0#4 0x00#8, cmdWord m 0#4 0x00#8⟩ (cmdWord op rsvd data)) =
      decide (op &&& m = p) := by
    intro p m
    simp only [OpcodeRow.holds, h]
  have t : opcodeRows.map (fun r => r.holds (cmdWord op rsvd data)) =
      [decide (op &&& 15#4 = 0#4), decide (op &&& 15#4 = 1#4), decide (op &&& 15#4 = 2#4), decide (op &&& 15#4 = 3#4),
        decide (op &&& 12#4 = 4#4), decide (op &&& 8#4 = 8#4)] := by
    rw [← e, ← e, ← e, ← e, ← e, ← e]
    rfl
  rw [t]
  clear t e h
  revert op
  decide

/-- What the mask and pattern of each row say of OP, from what they say of the word. -/
theorem rows_of_encode {op : BitVec 4} {data : Byte} {r : OpcodeRow} (hr : r ∈ opcodeRows) :
    r.holds (cmdWord op 0#4 data) = true ↔
      (r.mnemonic = "CHAR" ∧ op = 0#4) ∨ (r.mnemonic = "EOS" ∧ op = 1#4) ∨ (r.mnemonic = "SINKFAIL" ∧ op = 2#4) ∨
      (r.mnemonic = "EXTERR" ∧ op = 3#4) ∨ (r.mnemonic = "RESERVED_4_7" ∧ 4 ≤ op.toNat ∧ op.toNat ≤ 7) ∨
      (r.mnemonic = "RESERVED_8_F" ∧ 8 ≤ op.toNat) := by
  have h := rows_of_op op 0#4 data
  simp only [opcodeRows, List.map_cons, List.map_nil, List.cons.injEq] at h
  obtain ⟨h₀, h₁, h₂, h₃, h₄, h₅, -⟩ := h
  simp only [opcodeRows, List.mem_cons, List.not_mem_nil, or_false] at hr
  rcases hr with rfl | rfl | rfl | rfl | rfl | rfl
  · simp [h₀]
  · simp [h₁]
  · simp [h₂]
  · simp [h₃]
  · simp [h₄]
  · simp [h₅]

theorem char (c : Byte) : Statement (.char c) := by
  intro _ r hr
  rw [encode, rows_of_encode hr]
  simp [Instr.mnemonic]

theorem eos : Statement .eos := by
  intro _ r hr
  rw [encode, rows_of_encode hr]
  simp [Instr.mnemonic]

theorem sinkfail (code : Byte) : Statement (.sinkfail code) := by
  intro _ r hr
  rw [encode, rows_of_encode hr]
  simp [Instr.mnemonic]

theorem exterr (code : Byte) : Statement (.exterr code) := by
  intro _ r hr
  rw [encode, rows_of_encode hr]
  simp [Instr.mnemonic]

theorem reserved47 (op : BitVec 4) : Statement (.reserved47 op) := by
  intro hw r hr
  simp only [Instr.WellFormed, Instr.wellFormed, decide_eq_true_eq] at hw
  rw [encode, rows_of_encode hr]
  have h : ∀ k : BitVec 4, k.toNat ≤ 3 → op ≠ k := by
    rintro k hk rfl
    omega
  simp [Instr.mnemonic, hw, h 0#4 (by decide), h 1#4 (by decide), h 2#4 (by decide), h 3#4 (by decide),
    show ¬ 8 ≤ op.toNat by omega]

theorem reserved8F (op : BitVec 4) : Statement (.reserved8F op) := by
  intro hw r hr
  simp only [Instr.WellFormed, Instr.wellFormed, decide_eq_true_eq] at hw
  rw [encode, rows_of_encode hr]
  have h : ∀ k : BitVec 4, k.toNat ≤ 3 → op ≠ k := by
    rintro k hk rfl
    omega
  simp [Instr.mnemonic, hw, h 0#4 (by decide), h 1#4 (by decide), h 2#4 (by decide), h 3#4 (by decide),
    show ¬ op.toNat ≤ 7 by omega]

end Sys2Proof.Laws.TableRow
end

