-- ==== Sys2Proof/Laws/Runs.lean ====
section
/-! SUPPORT. Runs of command words, and the chunks of a stream. -/

namespace Sys2Proof.Machine

open Sys2Proof

/-- Running two sequences one after the other (R60). -/
theorem runWords_append (xs ys : List Word) :
    ∀ s, runWords (xs ++ ys) s =
      match runWords xs s with
      | .next t => runWords ys t
      | .fault r => .fault r
      | .refused r => .refused r := by
  induction xs with
  | nil => intro s; rfl
  | cons w ws ih =>
    intro s
    simp only [List.cons_append, runWords]
    cases exec (decode w) s <;> simp [ih]

theorem runWords_char_cons (c : Byte) (cs : List Byte) (s : State) :
    runWords (charWords (c :: cs)) s =
      match exec (.char c) s with
      | .next t => runWords (charWords cs) t
      | .fault r => .fault r
      | .refused r => .refused r := by
  have h : decode (encode (.char c)) = .char c := decode_encode_char c
  show (match exec (decode (encode (.char c))) s with
      | .next t => runWords (charWords cs) t
      | .fault r => .fault r
      | .refused r => .refused r) = _
  rw [h]

/-- The first eight characters of a stream are its first chunk. -/
theorem chunksOf8_append (d rest : List Byte) (h : d.length = 8) : chunksOf8 (d ++ rest) = d :: chunksOf8 rest := by
  match d, h with
  | [_, _, _, _, _, _, _, _], _ => rfl

/-- A stream of 1 to 7 characters is one chunk. -/
theorem chunksOf8_short (d : List Byte) (h : d.length < 8) (hne : d ≠ []) : chunksOf8 d = [d] := by
  match d, h with
  | [_], _ => rfl
  | [_, _], _ => rfl
  | [_, _, _], _ => rfl
  | [_, _, _, _], _ => rfl
  | [_, _, _, _, _], _ => rfl
  | [_, _, _, _, _, _], _ => rfl
  | [_, _, _, _, _, _, _], _ => rfl

/-- No character of the stream of R108 is whitespace. -/
theorem dataBytes_not_whitespace (cs : List Byte) : ∀ c ∈ dataBytes cs, isWhitespace c = false := by
  simp [dataBytes]

end Sys2Proof.Machine
end

