-- ==== Sys2Proof/Tests/Slice0.lean ====
section
/-! SUPPORT. The model's own tests, and a witness for the hypotheses of each statement. Expected values are the spec's:
95_test_vectors (T2.1 for its section 2.1, and so on) and the words of 30_encoding R70 and R80. -/

namespace Sys2Proof.Tests

open Sys2Proof Sys2Proof.Machine

/-! ## Helpers -/

/-- The state after reset with the characters in the chunk. -/
def holding (s : String) : State := (ascii s).foldl State.append State.reset

/-- The state after reset, then DONE. -/
def finished : State := State.reset.markDone

/-- A halted state: INVALID_SIZE 3 (T2.3). -/
def stopped : State := State.reset.latch .invalidSize 0x03#8

/-- The outcome is a next state, and the test holds of it. -/
def nextHas (o : Host.Outcome State Fault Refusal) (p : State → Bool) : Bool :=
  match o with
  | .next t => p t
  | .fault _ => false
  | .refused _ => false

/-- The outcome is a next state with this RUN_STATE, chunk and output. -/
def endsIn (o : Host.Outcome State Fault Refusal) (r : RunState) (chunk out : String) : Bool :=
  nextHas o fun t => t.runState == r && t.chunk == ascii chunk && t.outLog == ascii out

/-! ## WellFormed -/

theorem test_reserved47_op_out_of_range : (Instr.reserved47 0x3#4).wellFormed = false := by decide
theorem test_reserved47_op_too_high : (Instr.reserved47 0x8#4).wellFormed = false := by decide
theorem test_reserved8F_op_out_of_range : (Instr.reserved8F 0x7#4).wellFormed = false := by decide

/-! ## Decoding: words written out from R70, `OP RSVD DATA` (T2.5, R80) -/

theorem test_decode_char : decode 0b0000_0000_01001110#16 = .char 0x4E#8 := by decide
theorem test_decode_char_rsvd : decode 0b0000_1111_01001110#16 = .char 0x4E#8 := by decide
theorem test_decode_eos : decode 0b0001_0000_00000000#16 = .eos := by decide
theorem test_decode_eos_ignored_bits : decode 0b0001_0010_00110100#16 = .eos := by decide
theorem test_decode_sinkfail : decode 0b0010_0000_00000101#16 = .sinkfail 0x05#8 := by decide
theorem test_decode_exterr : decode 0b0011_0000_01111111#16 = .exterr 0x7F#8 := by decide
theorem test_decode_reserved47_first : decode 0b0100_0000_00000000#16 = .reserved47 0x4#4 := by decide
theorem test_decode_reserved47_last : decode 0b0111_0000_11111111#16 = .reserved47 0x7#4 := by decide
theorem test_decode_reserved8F_first : decode 0b1000_1010_10111100#16 = .reserved8F 0x8#4 := by decide
theorem test_decode_reserved8F_last : decode 0b1111_1111_11111111#16 = .reserved8F 0xF#4 := by decide
theorem test_encode_sinkfail : encode (.sinkfail 0x05#8) = 0x2005#16 := by decide
theorem test_decode_table_word : decodeTableWord 16 0x307F = some (.exterr 0x7F#8) := by decide
theorem test_decode_table_word_too_long : decodeTableWord 32 0x307F = none := by decide
theorem test_decode_bits_rejects_by_name : decodeBits 32 0x307F = .error .notOneWord := by rfl

/-! ## The tables, decode and toHex (T1.3, T2.1, T2.2) -/

theorem test_alphabet_pinned_values :
    (ascii "NBSWY3DPM").map decLut =
      [some 13#5, some 1#5, some 18#5, some 22#5, some 24#5, some 27#5, some 3#5, some 15#5, some 12#5] := by decide
theorem test_decode_eight : decodeChunk (ascii "NBSWY3DP") = .ok (ascii "hello") := by decide
theorem test_decode_seven : decodeChunk (ascii "MZXW6YQ") = .ok (ascii "foob") := by decide
theorem test_decode_five : decodeChunk (ascii "MZXW6") = .ok (ascii "foo") := by decide
theorem test_decode_four_noncanonical : decodeChunk (ascii "7777") = .ok [0xFF#8, 0xFF#8] := by decide
theorem test_decode_two_noncanonical : decodeChunk (ascii "M3") = .ok [0x66#8] := by decide
theorem test_decode_length_before_characters : decodeChunk (ascii "1AB") = .err .invalidSize 0x03#8 := by decide
theorem test_decode_first_bad_character : decodeChunk (ascii "A01B") = .err .invalidData 0x30#8 := by decide
theorem test_decode_padding : decodeChunk (ascii "MY======") = .err .invalidData 0x3D#8 := by decide
theorem test_toHex : toHex [0x12#8, 0xAB#8, 0x0A#8] = ascii "12ab0a" := by decide
theorem test_encode_group : encodeGroup (ascii "foob") = ascii "MZXW6YQ" := by decide

/-! ## The commands (T2.3, T2.4) -/

theorem test_char_appends_unchecked : endsIn (exec (.char 0x31#8) (holding "AB")) .running "AB1" "" = true := by decide
theorem test_char_eighth_flushes :
    endsIn (exec (.char 0x50#8) (holding "NBSWY3D")) .running "" "hello" = true := by decide
theorem test_eos_hex :
    endsIn (exec .eos { holding "MY" with hexEn := true }) .done "" "66" = true := by decide
theorem test_eos_bad_size :
    nextHas (exec .eos (holding "ABCDEF")) (fun t => t.status == 0x0006000A#32 && t.outLog == []) = true := by decide
theorem test_sinkfail_status :
    nextHas (exec (.sinkfail 0x05#8) State.reset) (fun t => t.status == 0x0005000E#32) = true := by decide
theorem test_sinkfail_in_halted :
    nextHas (exec (.sinkfail 0x05#8) stopped) (fun t => t.status == 0x0003000A#32) = true := by decide
theorem test_exterr_in_done_hex :
    nextHas (exec (.exterr 0x7F#8) { finished with hexEn := true }) (fun t => t.status == 0x007F0032#32) = true := by
  decide
theorem test_reserved47_keeps_chunk :
    nextHas (exec (.reserved47 0x4#4) (holding "ABC")) (fun t => t.status == 0x00F40312#32) = true := by decide
theorem test_reserved8F_status :
    nextHas (exec (.reserved8F 0xF#4) State.reset) (fun t => t.status == 0x00FF0012#32) = true := by decide

/-! ## Steps -/

theorem test_step_runs_the_word_after_reset :
    nextHas (step (State.reset.withFetchWord 16 0x0F4E)) (fun t => t.chunk == ascii "N" && t.input == []) = true := by
  decide
theorem test_char_in_done_before_whitespace :
    nextHas (step (finished.withFetchWord 16 0x0020)) (fun t => t.status == 0x00F00012#32) = true := by decide
theorem test_stalled_sink :
    exec .eos { holding "MZXW6YQ" with sink := .stallsAfter 3 } = .fault (.sinkStalled (ascii "foo")) := by rfl
theorem test_failing_flush_before_a_stalled_sink :
    nextHas (exec .eos { holding "ABC" with sink := .stallsAfter 0 }) (fun t => t.status == 0x0003000A#32) = true := by
  decide
theorem test_reset_during_a_command :
    nextHas (step { holding "MZXW6YQ" with input := [.commandCutByReset 0x1000#16 3] })
      (fun t => t.outLog == ascii "foo" && t.rst && t.chunkLen == 7#4) = true := by decide
theorem test_end_of_reset :
    nextHas (step { stopped with rst := true, hexEnPin := true, input := [.releaseReset] })
      (fun t => t.status == 0x00000020#32 && t.outLog == []) = true := by decide

/-! ## The assembler (R78, R80; T3 P6) -/

theorem test_assemble_char_escape : assembleLine (ascii "CHAR '\\n' ; newline") = .ok [0x000A#16] := by decide
theorem test_assemble_sinkfail_default : assembleLine (ascii "SINKFAIL") = .ok [0x2000#16] := by decide
theorem test_assemble_too_large : assembleLine (ascii "EXTERR 256") = .error .tooLarge := by decide
theorem test_assemble_program :
    assemble (ascii "; HEX_EN = 0\nSTR \"ABC\"\n.word 0x4000\n") = .ok [0x0041#16, 0x0042#16, 0x0043#16, 0x4000#16] := by
  decide +kernel
theorem test_assemble_stream_escape :
    assembleLine (ascii "STREAM \"M\\\"\"") = .ok [0x004D#16, 0x0022#16, 0x1000#16] := by decide +kernel

/-! ## Witnesses: a concrete case that meets all the hypotheses of a statement -/

theorem witness_DecodeEncodeAgree :
    (Instr.reserved47 0x4#4).WellFormed ∧ (Instr.reserved47 0x7#4).WellFormed ∧ (Instr.reserved8F 0x8#4).WellFormed := by
  decide

theorem witness_OpcodeSelectsOneRow :
    (0x0FFF#16).toNat / 4096 = 0 ∧ (0x1000#16).toNat / 4096 = 1 ∧ (0x2FFF#16).toNat / 4096 = 2 ∧
    (0x3000#16).toNat / 4096 = 3 ∧ 4 ≤ (0x4000#16).toNat / 4096 ∧ (0x7FFF#16).toNat / 4096 ≤ 7 ∧
    8 ≤ (0x8000#16).toNat / 4096 := by decide

theorem witness_PseudoInstructionExpansions : 1 < (ascii "MY").length := by decide

theorem witness_CharLiteralAssembles : (0x4E#8 : Byte) ≠ 0x27#8 ∧ (0x4E#8 : Byte) ≠ 0x5C#8 := by decide

theorem witness_CharacterTableIsInverse : decLut 0x32#8 = some 26#5 ∧ decLut 0x5A#8 = some 25#5 := by decide

theorem witness_HexFormatterSpec : 0 < [0xAB#8].length ∧ 0x61#8 ∈ toHex [0xAB#8] := by decide

theorem witness_LengthCheckComesFirst :
    (ascii "1").length ≤ 8 ∧ (ascii "1").length ≠ 0 ∧ (ascii "1").length ≠ 2 ∧ (ascii "1").length ≠ 4 ∧
    (ascii "1").length ≠ 5 ∧ (ascii "1").length ≠ 7 ∧ (ascii "1").length ≠ 8 := by decide

theorem witness_FirstBadCharacterReported :
    (ascii "A" ++ 0x30#8 :: ascii "1B").length ∈ [2, 4, 5, 7, 8] ∧ (∀ c ∈ ascii "A", validChar c = true) ∧
    validChar 0x30#8 = false := by decide

theorem witness_RepackIsTheSameBitStream :
    (ascii "MY").length ∈ [0, 2, 4, 5, 7, 8] ∧ (∀ c ∈ ascii "MY", validChar c = true) ∧
    (ascii "MY")[7 / 5]? = some 0x59#8 ∧ decLut 0x59#8 = some 24#5 := by decide

theorem witness_DiscardedBitsDoNotMatter :
    nbytes ((ascii "M").length + 1) = some 1 ∧ (∀ x ∈ ascii "M", validChar x = true) ∧ decLut 0x59#8 = some 24#5 ∧
    decLut 0x33#8 = some 27#5 ∧ (24#5).toNat / 2 ^ (5 * ((ascii "M").length + 1) - 8 * 1) =
      (27#5).toNat / 2 ^ (5 * ((ascii "M").length + 1) - 8 * 1) := by decide

theorem witness_CanonicalRoundTrip :
    Canonical (ascii "MY") ∧ decodeChunk (ascii "MY") = .ok [0x66#8] ∧ [0x66#8].length ≤ 5 :=
  ⟨⟨1, by decide, by decide, by decide⟩, by decide, by decide⟩

theorem witness_WhitespaceIsDropped :
    (holding "AB").runState = .running ∧ (holding "AB").chunkLen.toNat < 7 ∧ (holding "NBSWY3D").runState = .running ∧
    (holding "NBSWY3D").chunkLen = 7#4 ∧ (holding "NBSWY3D").sink = .always ∧
    (0x0B#8 ≠ 0x20#8 ∧ 0x0B#8 ≠ 0x09#8 ∧ 0x0B#8 ≠ 0x0A#8 ∧ 0x0B#8 ≠ 0x0D#8) := by decide

theorem witness_CharAppendsToChunk :
    (holding "ABABAB").runState = .running ∧ (holding "ABABAB").chunkLen.toNat < 7 ∧
    (holding "ABABABA").runState = .running ∧ (holding "ABABABA").chunkLen.toNat = 7 ∧
    0x31#8 ≠ 0x20#8 ∧ 0x31#8 ≠ 0x09#8 ∧ 0x31#8 ≠ 0x0A#8 ∧ 0x31#8 ≠ 0x0D#8 := by decide

/-- One character for a chunk that decodes, and one that is not in the alphabet. -/
theorem witness_EighthCharacterFlushes :
    (holding "NBSWY3D").runState = .running ∧ (holding "NBSWY3D").chunkLen = 7#4 ∧ (holding "NBSWY3D").sink = .always ∧
    decodeChunk ((holding "NBSWY3D").chunk ++ [0x50#8]) = .ok (ascii "hello") ∧
    decodeChunk ((holding "NBSWY3D").chunk ++ [0x31#8]) = .err .invalidData 0x31#8 ∧
    0x50#8 ≠ 0x20#8 ∧ 0x50#8 ≠ 0x09#8 ∧ 0x50#8 ≠ 0x0A#8 ∧ 0x50#8 ≠ 0x0D#8 ∧
    0x31#8 ≠ 0x20#8 ∧ 0x31#8 ≠ 0x09#8 ∧ 0x31#8 ≠ 0x0A#8 ∧ 0x31#8 ≠ 0x0D#8 := by decide

theorem witness_OnlyCharWritesBuf :
    exec .eos State.reset = .next finished ∧ exec (.char 0x20#8) State.reset = .next State.reset ∧
    exec (.char 0x31#8) State.reset = .next (State.reset.append 0x31#8) ∧ isWhitespace 0x20#8 = true ∧
    State.reset.runState = .running ∧ isWhitespace 0x31#8 = false :=
  ⟨rfl, rfl, rfl, by decide, by decide, by decide⟩

theorem witness_CharAfterEndOfStream : finished.runState = .done := by decide

theorem witness_EosFlushesTheLeftover :
    State.reset.runState = .running ∧ State.reset.chunkLen = 0#4 ∧
    1 ≤ (holding "A").chunkLen.toNat ∧ decodeChunk (holding "A").chunk = .err .invalidSize 0x01#8 ∧
    (holding "MZXW6YQ").chunkLen.toNat ≤ 7 ∧ decodeChunk (holding "MZXW6YQ").chunk = .ok (ascii "foob") ∧
    (holding "MZXW6YQ").sink = .always := by decide

theorem witness_SecondEosIsAnError : finished.runState = .done := by decide

theorem witness_SinkfailLatchesWriteFailed :
    finished.runState ≠ .halted ∧ stopped.runState = .halted ∧ State.reset.runState = .running ∧
    State.reset.hexEn = false ∧ State.reset.chunkLen = 0#4 := by decide

theorem witness_ExterrLatchesOther :
    State.reset.runState ≠ .halted ∧ stopped.runState = .halted ∧
    ({ finished with hexEn := true } : State).runState = .done ∧ ({ finished with hexEn := true } : State).hexEn = true ∧
    ({ finished with hexEn := true } : State).chunkLen = 0#4 := by decide

theorem witness_ReservedOpcodesLatchOther :
    4 ≤ (0x4#4).toNat ∧ (0x7#4).toNat ≤ 7 ∧ 8 ≤ (0x8#4).toNat ∧ 8 ≤ (0xF#4).toNat ∧ State.reset.runState ≠ .halted ∧
    stopped.runState = .halted ∧ (holding "ABC").runState = .running ∧ (holding "ABC").hexEn = false ∧
    (holding "ABC").chunkLen = 3#4 := by decide

theorem witness_HaltedIgnoresEveryCommand : stopped.runState = .halted := by decide

theorem witness_StepRunsThePresentedCommand :
    (presentWord 0x1000#16 State.reset).input = .command 0x1000#16 :: [] ∧
    (presentWord 0x1000#16 State.reset).rst = false ∧ 16 ≤ 16 := by decide

theorem witness_OnlyCommandsAndResetChangeTheBlock :
    State.reset.input = [] ∧
    (∀ w, ({ State.reset with input := [.driveHexEn true] } : State).input.head? ≠ some (.command w)) ∧
    (∀ w n, ({ State.reset with input := [.driveHexEn true] } : State).input.head? ≠ some (.commandCutByReset w n)) ∧
    ({ State.reset with input := [.driveHexEn true] } : State).input.head? ≠ some .releaseReset :=
  ⟨rfl, by simp, by simp, by simp⟩

theorem witness_PinsAndReadyDuringReset :
    ({ State.reset with rst := true, input := [.command 0x1000#16] } : State).rst = true ∧
    ({ State.reset with rst := true, input := [.command 0x1000#16] } : State).input = .command 0x1000#16 :: [] ∧
    ({ State.reset with rst := true, input := [.commandCutByReset 0x1000#16 0] } : State).input =
      .commandCutByReset 0x1000#16 0 :: [] ∧
    ({ State.reset with input := [.driveHexEn true] } : State).input = .driveHexEn true :: [] ∧
    ({ State.reset with input := [.assertReset] } : State).input = .assertReset :: [] := by decide

theorem witness_ResetPutsEveryElement :
    ({ stopped with rst := true, input := [.releaseReset] } : State).rst = true ∧
    ({ stopped with rst := true, input := [.releaseReset] } : State).input = .releaseReset :: [] := by decide

theorem witness_OnlyResetLeavesHalted :
    step { stopped with input := [.command 0x0041#16] } = .next stopped ∧ stopped.runState = .halted ∧
    ¬ (stopped.rst = true ∧ [HostEvent.command 0x0041#16].head? = some .releaseReset) :=
  ⟨rfl, by decide, by decide⟩

theorem witness_OutcomeLinesFollowRunState :
    step { finished with input := [.command 0x2005#16] } = .next (finished.latch .writeFailed 0x05#8) ∧
    finished.doneLine = true ∧ stopped.haltedLine = true ∧
    ¬ (finished.rst = true ∧ [HostEvent.command 0x2005#16].head? = some .releaseReset) :=
  ⟨rfl, by decide, by decide, by decide⟩

/-- EOS on "MZXW6YQ" before a sink with room for three of its four bytes: the three are a prefix it has room for. -/
theorem witness_MidCommandResetAdmitsEveryPrefix :
    ({ holding "MZXW6YQ" with sink := .stallsAfter 3 } : State).rst = false ∧
    exec (decode 0x1000#16) (holding "MZXW6YQ") =
      .next ((holding "MZXW6YQ").emptyChunk.put (ascii "foob") .always).markDone ∧
    ((holding "MZXW6YQ").outLog ++ ascii "foo") <+:
      ((holding "MZXW6YQ").emptyChunk.put (ascii "foob") .always).markDone.outLog ∧
    (ascii "foo").length ≤ 3 :=
  ⟨by decide, rfl, by decide, by decide⟩

/-- `halted` rises on an EXTERR and `done` on an EOS. -/
theorem witness_OutcomeLinesRiseOnRaiseAndEos :
    step { State.reset with input := [.command 0x307F#16] } = .next (State.reset.latch .other 0x7F#8) ∧
    State.reset.haltedLine = false ∧ (State.reset.latch .other 0x7F#8).haltedLine = true ∧
    step { State.reset with input := [.command 0x1000#16] } = .next finished ∧
    State.reset.doneLine = false ∧ finished.doneLine = true :=
  ⟨rfl, by decide, by decide, rfl, by decide, by decide⟩

theorem witness_StalledSinkNeverCompletes :
    ({ holding "MY" with sink := .stallsAfter 1 } : State).runState = .running ∧ (holding "MY").chunkLen ≠ 0#4 ∧
    decodeChunk (holding "MY").chunk = .ok [0x66#8] ∧ (formatOut (holding "MY").hexEn [0x66#8]).length ≤ 1 ∧
    0 < (formatOut (holding "MY").hexEn [0x66#8]).length ∧ (holding "NBSWY3D").chunkLen = 7#4 ∧
    isWhitespace 0x50#8 = false ∧ decodeChunk ((holding "NBSWY3D").chunk ++ [0x50#8]) = .ok (ascii "hello") := by decide

theorem witness_CommandsKeepConfiguration : exec .eos State.reset = .next finished := rfl

/-- A failing EOS, and a failing CHAR that fills the chunk. -/
theorem witness_FailingCommandPutsNothingOut :
    exec .eos (holding "ABC") = .next ((holding "ABC").emptyChunk.latch .invalidSize 0x03#8) ∧
    (holding "ABC").runState ≠ .halted ∧
    ((holding "ABC").emptyChunk.latch .invalidSize 0x03#8).runState = .halted ∧
    exec (.char 0x31#8) (holding "ABABABA") =
      .next (((holding "ABABABA").append 0x31#8).emptyChunk.latch .invalidData 0x31#8) ∧
    (holding "ABABABA").runState ≠ .halted :=
  ⟨rfl, by decide, by decide, rfl, by decide⟩

theorem witness_OutputIsThatOfAFlush :
    exec .eos (holding "MY") = .next ((holding "MY").emptyChunk.put [0x66#8] .always).markDone := rfl

theorem witness_FlagsWrittenOnlyAsListed :
    exec (.exterr 0x7F#8) State.reset = .next (State.reset.latch .other 0x7F#8) ∧
    (State.reset.latch .other 0x7F#8).errKind ≠ State.reset.errKind ∧
    (State.reset.latch .other 0x7F#8).runState ≠ State.reset.runState :=
  ⟨rfl, by decide, by decide⟩

theorem witness_OutLogOnlyGrows :
    step { holding "MY" with input := [.command 0x1000#16] } =
      .next ((holding "MY").emptyChunk.put [0x66#8] .always).markDone ∧
    ¬ ((holding "MY").rst = true ∧ [HostEvent.command 0x1000#16].head? = some .releaseReset) :=
  ⟨rfl, by decide⟩

theorem witness_StepKeepsInvariant :
    ({ holding "MY" with input := [.command 0x1000#16] } : State).Inv ∧
    step { holding "MY" with input := [.command 0x1000#16] } =
      .next ((holding "MY").emptyChunk.put [0x66#8] .always).markDone :=
  ⟨by decide, rfl⟩

theorem witness_ErrorRegistersInvariant :
    ({ State.reset with input := [.command 0x307F#16] } : State).ErrorInv ∧
    step { State.reset with input := [.command 0x307F#16] } = .next (State.reset.latch .other 0x7F#8) ∧
    (State.reset.latch .other 0x7F#8).errPayload ≠ State.reset.errPayload :=
  ⟨by decide, rfl, by decide⟩

/-- Two states that differ in the dead slot BUF[7] alone. -/
theorem witness_DeadSlotsAreInvisible :
    SameButDeadSlots (holding "MY") { holding "MY" with buf := (holding "MY").buf.setIfInBounds 7 0x41#8 } ∧
    (holding "MY").buf ≠ (holding "MY").buf.setIfInBounds 7 0x41#8 :=
  ⟨⟨rfl, by decide⟩, by decide⟩

theorem witness_StepsRunTheWordsInOrder :
    ({ State.reset with input := [.command 0x004D#16, .command 0x0059#16, .assertReset] } : State).rst = false ∧
    ({ State.reset with input := [.command 0x004D#16, .command 0x0059#16, .assertReset] } : State).input =
      [0x004D#16, 0x0059#16].map .command ++ [.assertReset] := by decide

theorem witness_WhitespaceIsTransparent :
    (holding "NB").runState ≠ .done ∧ dataBytes (ascii "SW\nY3 DP") = dataBytes (ascii "SWY3DP") := by decide

theorem witness_StreamIsDecodedByChunks : State.reset.StartsStream := by decide

theorem witness_DoneExactlyForValidStreams : (State.resetWith true (Vector.replicate 8 0xFF#8)).StartsStream := by decide

theorem witness_HexRunIsHexOfRawRun : (holding "MY").hexEn = false ∧ (holding "MY").sink = .always := by decide

end Sys2Proof.Tests
end

section
/-! PROOFS. The fields of STATUS as numbers (R36) and the character table (R33). -/

namespace Sys2Proof.Machine

open Sys2Proof

/-! ## STATUS -/

/-- A concatenation as a number. -/
theorem toNat_append_eq_add {m n : Nat} (x : BitVec m) (y : BitVec n) :
    (x ++ y).toNat = x.toNat * 2 ^ n + y.toNat := by
  rw [BitVec.toNat_append, ← Nat.shiftLeft_add_eq_or_of_lt y.isLt, Nat.shiftLeft_eq]

/-- STATUS as a number: each of the eight parts put together in R36 counts from the place where those after it end. -/
theorem status_toNat (s : State) :
    s.status.toNat = s.runState.code.toNat + 4 * s.errKind.code.toNat + 32 * (if s.hexEn then 1 else 0) +
      256 * s.chunkLen.toNat + 65536 * s.errPayload.toNat := by
  have hhex : (BitVec.ofBool s.hexEn).toNat = if s.hexEn then 1 else 0 := by cases s.hexEn <;> rfl
  simp only [State.status, toNat_append_eq_add, hhex, BitVec.toNat_ofNat]
  omega

/-- Settles O9, with the codes of RUN_STATE and ERR_KIND in the two fields at the low end. -/
theorem statusWordLayout : Obligations.StatusWordLayout := by
  unfold Obligations.StatusWordLayout
  intro s
  rw [status_toNat]
  congr 3
  cases s.runState <;> cases s.errKind <;> rfl

/-! ## The character table -/

/-- DEC_LUT by the number the character is (R33). -/
theorem decLut_eq_some_iff (c : Byte) (v : Symbol) :
    decLut c = some v ↔
      (0x41 ≤ c.toNat ∧ c.toNat ≤ 0x5A ∧ v.toNat = c.toNat - 0x41) ∨
      (0x32 ≤ c.toNat ∧ c.toNat ≤ 0x37 ∧ v.toNat = c.toNat - 0x32 + 26) := by
  unfold decLut
  split_ifs with hletter hdigit
  · simp only [Option.some.injEq]; bv_omega
  · simp only [Option.some.injEq]; bv_omega
  · simp only [false_iff]; bv_omega

/-- The valid bit by the number the character is (R33). -/
theorem validChar_iff (c : Byte) :
    validChar c = true ↔ (0x41 ≤ c.toNat ∧ c.toNat ≤ 0x5A) ∨ (0x32 ≤ c.toNat ∧ c.toNat ≤ 0x37) := by
  unfold validChar decLut
  split_ifs with hletter hdigit
  · simp only [Option.isSome_some, true_iff]; bv_omega
  · simp only [Option.isSome_some, true_iff]; bv_omega
  · simp only [Option.isSome_none, Bool.false_eq_true, false_iff]; bv_omega

/-- No two characters have the same symbol. -/
theorem decLut_injective {c d : Byte} {v : Symbol} (hc : decLut c = some v) (hd : decLut d = some v) : c = d := by
  rw [decLut_eq_some_iff] at hc hd
  apply BitVec.eq_of_toNat_eq
  omega

/-- ALPH is inverted by DEC_LUT, entry by entry of the table (R31, R33). -/
theorem decLut_alphAt : ∀ v : Symbol, decLut (alphAt v) = some v := by decide

/-- Settles O7: the formula of R33 gives the valid bit and the symbols, and ALPH of a symbol is its one character. -/
theorem characterTableIsInverse : Obligations.CharacterTableIsInverse := by
  unfold Obligations.CharacterTableIsInverse
  refine ⟨validChar_iff, fun c v h => ⟨?_, decLut_injective (decLut_alphAt v) h⟩, decLut_alphAt⟩
  rw [decLut_eq_some_iff] at h
  split_ifs <;> omega

end Sys2Proof.Machine
end

section
/-! PROOFS. The error registers (R27): a step keeps them, or raises an error, or ends a reset. -/

namespace Sys2Proof.Machine

open Sys2Proof

/-- From `s` to `t` the error registers stay as they are, HALTED is neither entered nor left, and DONE is entered with
an empty chunk only. -/
structure KeepsError (s t : State) : Prop where
  errKind : t.errKind = s.errKind
  errPayload : t.errPayload = s.errPayload
  halted_iff : t.runState = .halted ↔ s.runState = .halted
  done : t.runState = .done → t.chunkLen = 0#4 ∨ (s.runState = .done ∧ t.chunkLen = s.chunkLen)

/-- From `s` to `t` an error is raised (R161). -/
structure RaisesError (s t : State) : Prop where
  live : s.runState ≠ .halted
  halted : t.runState = .halted
  errKind : t.errKind ≠ .none

/-- Where the registers the invariants speak of are unchanged, they are kept. -/
theorem KeepsError.of_eq {s t : State} (hkind : t.errKind = s.errKind) (hpayload : t.errPayload = s.errPayload)
    (hrun : t.runState = s.runState) (hlen : t.chunkLen = s.chunkLen) : KeepsError s t where
  errKind := hkind
  errPayload := hpayload
  halted_iff := by rw [hrun]
  done h := .inr ⟨hrun ▸ h, hlen⟩

theorem KeepsError.errorInv {s t : State} (h : KeepsError s t) (hs : s.ErrorInv) : t.ErrorInv := by
  obtain ⟨hkind, hpayload, hdone⟩ := hs
  refine ⟨?_, ?_, fun ht => ?_⟩
  · rw [h.errKind, hkind, Ne, Ne, h.halted_iff]
  · rw [h.errKind, h.errPayload]
    exact hpayload
  · obtain hlen | ⟨hrun, hlen⟩ := h.done ht
    · exact hlen
    · rw [hlen, hdone hrun]

theorem RaisesError.errorInv {s t : State} (h : RaisesError s t) : t.ErrorInv := by
  refine ⟨iff_of_false h.errKind (not_not_intro h.halted), fun ht => absurd ht h.errKind, fun ht => ?_⟩
  rw [h.halted] at ht
  cases ht

theorem decodeChunk_err_ne_none {ch : List Byte} {kind : ErrKind} {payload : Byte}
    (h : decodeChunk ch = .err kind payload) : kind ≠ .none := by
  obtain ⟨rfl, -, -⟩ | ⟨rfl, -, -⟩ := decodeChunk_err h <;> decide

/-- A command that completes keeps the error or raises one. -/
theorem exec_keeps_or_raises {i : Instr} {s t : State} (h : exec i s = .next t) : KeepsError s t ∨ RaisesError s t := by
  obtain rfl | ⟨hlive, kind, payload, hkind, rfl⟩ | ⟨hr, c, -, -, -, rfl⟩ | ⟨hr, -, hl, rfl⟩ |
    ⟨r, kind, payload, hr, hd, rfl, -⟩ | ⟨r, bytes, hr, -, hout⟩ := exec_next_cases h
  · exact .inl (.of_eq rfl rfl rfl rfl)
  · exact .inr ⟨hlive, rfl, by rcases hkind with rfl | rfl <;> simp⟩
  · exact .inl ⟨rfl, rfl, by simp, by simp [hr]⟩
  · exact .inl ⟨rfl, rfl, by simp [hr], by simp [hl]⟩
  · exact .inr ⟨by simp [hr], rfl, decodeChunk_err_ne_none hd⟩
  · obtain ⟨-, -, rfl, rfl⟩ | ⟨c, -, -, -, rfl, rfl⟩ := hout
    · exact .inl ⟨rfl, rfl, by simp [hr], by simp⟩
    · exact .inl ⟨rfl, rfl, by simp, by simp⟩

/-- A step that completes keeps the error, raises one, or ends a reset. -/
theorem step_keeps_or_raises_or_resets {s t : State} (h : step s = .next t) :
    KeepsError s t ∨ RaisesError s t ∨
    (s.rst = true ∧ s.input.head? = some .releaseReset ∧ ∃ r, t = resetBlock r) := by
  obtain ⟨-, rfl⟩ | ⟨e, rest, r, hi, rfl, hev⟩ := step_next_cases h
  · exact .inl (.of_eq rfl rfl rfl rfl)
  obtain ⟨w, -, -, hexec⟩ | ⟨w, n, -, -, rfl⟩ | ⟨-, -, rfl⟩ | ⟨-, rfl⟩ | ⟨rfl, hrst, rfl⟩ | ⟨-, -, rfl⟩ |
    ⟨level, -, rfl⟩ := hev
  · -- `KeepsError` and `RaisesError` do not look at the event taken from the port
    obtain hk | hk := exec_keeps_or_raises hexec
    · exact .inl ⟨hk.errKind, hk.errPayload, hk.halted_iff, hk.done⟩
    · exact .inr (.inl ⟨hk.live, hk.halted, hk.errKind⟩)
  · exact .inl (.of_eq rfl rfl rfl rfl)
  · exact .inl (.of_eq rfl rfl rfl rfl)
  · exact .inl (.of_eq rfl rfl rfl rfl)
  · exact .inr (.inr ⟨hrst, by rw [hi]; rfl, _, rfl⟩)
  · exact .inl (.of_eq rfl rfl rfl rfl)
  · exact .inl (.of_eq rfl rfl rfl rfl)

/-- The state at the end of a reset meets the invariants of R27. -/
theorem resetBlock_errorInv (r : State) : (resetBlock r).ErrorInv := by
  simp [State.ErrorInv, resetBlock]

/-- Settles O41, by what a step can do to the error registers: keep them, raise, or reset. -/
theorem errorRegistersInvariant : Obligations.ErrorRegistersInvariant := by
  unfold Obligations.ErrorRegistersInvariant
  intro s t hs h
  obtain hk | hr | ⟨hrst, hhead, r, rfl⟩ := step_keeps_or_raises_or_resets h
  · refine ⟨hk.errorInv hs, fun hchange => ?_⟩
    simp [hk.errKind, hk.errPayload] at hchange
  · exact ⟨hr.errorInv, fun _ => .inl ⟨hr.live, hr.halted, hr.errKind⟩⟩
  · exact ⟨resetBlock_errorInv r, fun _ => .inr ⟨hrst, hhead, rfl, rfl⟩⟩

end Sys2Proof.Machine
end

section
/-! PROOFS. The dead slots of BUF (R23). Each operation takes two states that differ in dead slots alone to two such
states or to the same stop; the commands, the events and the step are put together from these facts. -/

namespace Sys2Proof.Machine

open Sys2Proof

/-! ## States that differ in dead slots alone -/

theorem SameButDeadSlots.refl (s : State) : SameButDeadSlots s s := ⟨rfl, rfl⟩

/-- The second state is the first with another BUF that holds the same chunk. -/
theorem SameButDeadSlots.exists_buf {s t : State} (h : SameButDeadSlots s t) :
    ∃ b, t = { s with buf := b } ∧ State.chunk { s with buf := b } = s.chunk := by
  obtain ⟨ht, hc⟩ := h
  exact ⟨t.buf, ht, by rw [← ht, hc]⟩

/-! Every register but BUF, and everything outside the block, is the same in both states. -/

section
variable {s t : State} (h : SameButDeadSlots s t)
include h

theorem SameButDeadSlots.eq_withBuf : t = { s with buf := t.buf } := h.1

theorem SameButDeadSlots.chunk_eq : t.chunk = s.chunk := h.2.symm

theorem SameButDeadSlots.chunkLen_eq : t.chunkLen = s.chunkLen := by rw [h.eq_withBuf]

theorem SameButDeadSlots.runState_eq : t.runState = s.runState := by rw [h.eq_withBuf]

theorem SameButDeadSlots.hexEn_eq : t.hexEn = s.hexEn := by rw [h.eq_withBuf]

theorem SameButDeadSlots.outLog_eq : t.outLog = s.outLog := by rw [h.eq_withBuf]

theorem SameButDeadSlots.rst_eq : t.rst = s.rst := by rw [h.eq_withBuf]

theorem SameButDeadSlots.input_eq : t.input = s.input := by rw [h.eq_withBuf]

theorem SameButDeadSlots.sink_eq : t.sink = s.sink := by rw [h.eq_withBuf]

end

theorem SameButDeadSlots.status_eq {s t : State} (h : SameButDeadSlots s t) : s.status = t.status := by
  obtain ⟨b, rfl, -⟩ := h.exists_buf
  rfl

/-- A full BUF has no dead slots. -/
theorem SameButDeadSlots.eq_of_full {s t : State} (h : SameButDeadSlots s t) (hl : 8 ≤ s.chunkLen.toNat) : s = t := by
  obtain ⟨b, rfl, hc⟩ := h.exists_buf
  have hb : b.toList = s.buf.toList := by
    simpa [State.chunk, List.take_of_length_le, hl] using hc
  rw [Vector.toList_inj.mp hb]

/-- An update that neither reads nor writes BUF and keeps CHUNK_LEN leaves the same slots live in both states. -/
theorem SameButDeadSlots.map {s t : State} (h : SameButDeadSlots s t) (f : State → State)
    (hbuf : ∀ b, f { s with buf := b } = { f s with buf := b }) (hlen : (f s).chunkLen = s.chunkLen) :
    SameButDeadSlots (f s) (f t) := by
  obtain ⟨b, rfl, hc⟩ := h.exists_buf
  have hs : (f s).buf = s.buf := by simpa using congrArg State.buf (hbuf s.buf)
  refine ⟨by rw [hbuf b], ?_⟩
  simpa [State.chunk, hbuf b, hs, hlen] using hc.symm

theorem SameButDeadSlots.emptyChunk {s t : State} (h : SameButDeadSlots s t) :
    SameButDeadSlots s.emptyChunk t.emptyChunk := by
  obtain ⟨b, rfl, -⟩ := h.exists_buf
  exact ⟨rfl, rfl⟩

/-- The slot an append brings to life is the one it writes. -/
theorem SameButDeadSlots.append {s t : State} (h : SameButDeadSlots s t) (c : Byte) :
    SameButDeadSlots (s.append c) (t.append c) := by
  by_cases hl : s.chunkLen.toNat ≤ 7
  · have hl' : t.chunkLen.toNat ≤ 7 := by rwa [h.chunkLen_eq]
    exact ⟨by rw [h.eq_withBuf]; rfl, by rw [append_chunk s c hl, append_chunk t c hl', h.chunk_eq]⟩
  · rw [h.eq_of_full (by omega)]
    exact .refl _

/-! ## Effects -/

/-- Two effects of which the same can be said up to the dead slots: `SameOutcome` inside a command. -/
inductive SameEffect : Effect → Effect → Prop where
  | goesOn {s t : State} (h : SameButDeadSlots s t) : SameEffect (.goesOn s) (.goesOn t)
  | ends {s t : State} (h : SameButDeadSlots s t) : SameEffect (.ends s) (.ends t)
  | stuck (r : Fault) : SameEffect (.stuck r) (.stuck r)

theorem SameEffect.outcome {e f : Effect} (h : SameEffect e f) : SameOutcome e.outcome f.outcome := by
  cases h with
  | goesOn h => exact h
  | ends h => exact h
  | stuck r => rfl

theorem SameEffect.andThen {e f : Effect} (h : SameEffect e f) {rest : State → Effect}
    (hrest : ∀ s t, SameButDeadSlots s t → SameEffect (rest s) (rest t)) :
    SameEffect (e.andThen rest) (f.andThen rest) := by
  cases h with
  | goesOn h => exact hrest _ _ h
  | ends h => exact .ends h
  | stuck r => exact .stuck r

/-- Two outcomes that are the same up to the dead slots are both a next state, or the same stop. -/
theorem SameOutcome.cases {o p : Host.Outcome State Fault Refusal} (h : SameOutcome o p) :
    (∃ s t, o = .next s ∧ p = .next t ∧ SameButDeadSlots s t) ∨
    (∃ r, o = .fault r ∧ p = .fault r) ∨ (∃ r, o = .refused r ∧ p = .refused r) := by
  cases o <;> cases p <;> simp_all [SameOutcome]

section
variable {s t : State} (h : SameButDeadSlots s t)
include h

theorem sameEffect_raiseError (kind : ErrKind) (payload : Byte) :
    SameEffect (raiseError kind payload s) (raiseError kind payload t) :=
  .ends (h.map (·.latch kind payload) (fun _ => rfl) rfl)

theorem sameEffect_emitAll (bytes : List Byte) : SameEffect (emitAll bytes s) (emitAll bytes t) := by
  unfold emitAll
  rw [h.sink_eq]
  split_ifs
  · exact .goesOn (h.map (·.put bytes _) (fun _ => rfl) rfl)
  · exact .stuck _

/-- FLUSH reads BUF through the chunk alone (R120). -/
theorem sameEffect_flush : SameEffect (flush s) (flush t) := by
  unfold flush
  rw [h.chunk_eq, h.hexEn_eq]
  cases decodeChunk s.chunk with
  | err kind payload => exact sameEffect_raiseError h.emptyChunk kind payload
  | ok bytes => exact sameEffect_emitAll h.emptyChunk _

theorem sameEffect_flushIfFull : SameEffect (flushIfFull s) (flushIfFull t) := by
  unfold flushIfFull
  rw [h.chunkLen_eq]
  split_ifs
  · exact sameEffect_flush h
  · exact .goesOn h

theorem sameEffect_flushIfAny : SameEffect (flushIfAny s) (flushIfAny t) := by
  unfold flushIfAny
  rw [h.chunkLen_eq]
  split_ifs
  · exact sameEffect_flush h
  · exact .goesOn h

theorem sameEffect_charEffect (c : Byte) : SameEffect (charEffect c s) (charEffect c t) := by
  unfold charEffect
  rw [h.runState_eq]
  split_ifs
  · exact sameEffect_raiseError h _ _
  · exact .goesOn h
  · exact sameEffect_flushIfFull (h.append c)

theorem sameEffect_eosEffect : SameEffect (eosEffect s) (eosEffect t) := by
  unfold eosEffect
  rw [h.runState_eq]
  split_ifs
  · exact sameEffect_raiseError h _ _
  · exact (sameEffect_flushIfAny h).andThen fun _ _ h' => .goesOn (h'.map (·.markDone) (fun _ => rfl) rfl)

/-! ## Commands, events and the step -/

theorem sameOutcome_unlessHalted {command : State → Effect} (hcommand : SameEffect (command s) (command t)) :
    SameOutcome (unlessHalted command s) (unlessHalted command t) := by
  unfold unlessHalted
  rw [h.runState_eq]
  split_ifs
  · exact h
  · exact hcommand.outcome

theorem sameOutcome_exec (i : Instr) : SameOutcome (exec i s) (exec i t) := by
  cases i with
  | char c => exact sameOutcome_unlessHalted h (sameEffect_charEffect h c)
  | eos => exact sameOutcome_unlessHalted h (sameEffect_eosEffect h)
  | sinkfail code => exact sameOutcome_unlessHalted h (sameEffect_raiseError h _ _)
  | exterr code => exact sameOutcome_unlessHalted h (sameEffect_raiseError h _ _)
  | reserved47 op => exact sameOutcome_unlessHalted h (sameEffect_raiseError h _ _)
  | reserved8F op => exact sameOutcome_unlessHalted h (sameEffect_raiseError h _ _)

/-- What a command puts out does not depend on the dead slots. -/
theorem commandOutput_congr (w : Word) : commandOutput w s = commandOutput w t := by
  have hexec := sameOutcome_exec (h.map (fun u => { u with sink := .always }) (fun _ => rfl) rfl) (decode w)
  unfold commandOutput
  generalize exec (decode w) { s with sink := .always } = o at *
  generalize exec (decode w) { t with sink := .always } = p at *
  rcases hexec.cases with ⟨s', t', rfl, rfl, h'⟩ | ⟨r, rfl, rfl⟩ | ⟨r, rfl, rfl⟩
  · simp only [h.outLog_eq]
    rw [h'.outLog_eq]
  · rfl
  · rfl

/-- The end of a reset writes every slot of BUF, from the number of the reset alone. -/
theorem resetBlock_congr : resetBlock s = resetBlock t := by
  rw [h.eq_withBuf]
  rfl

theorem sameOutcome_handleEvent (e : HostEvent) : SameOutcome (handleEvent e s) (handleEvent e t) := by
  have hready : t.cmdReady = s.cmdReady := by rw [State.cmdReady, h.rst_eq, State.cmdReady]
  cases e with
  | command w =>
    simp only [handleEvent]
    rw [hready]
    split_ifs
    · exact sameOutcome_exec h _
    · exact h
  | commandCutByReset w n =>
    have hsent : sentBeforeReset w n t = sentBeforeReset w n s := by
      rw [sentBeforeReset, sentBeforeReset, ← commandOutput_congr h, h.sink_eq]
    simp only [handleEvent]
    rw [hready, hsent]
    split_ifs
    · exact h.map (abandonCommand _) (fun _ => rfl) rfl
    · exact h
  | assertReset => exact h.map (fun u => { u with rst := true }) (fun _ => rfl) rfl
  | releaseReset =>
    simp only [handleEvent]
    rw [h.rst_eq, ← resetBlock_congr h]
    split_ifs
    · exact .refl _
    · exact h
  | driveHexEn level => exact h.map (fun u => { u with hexEnPin := level }) (fun _ => rfl) rfl

theorem sameOutcome_step : SameOutcome (step s) (step t) := by
  cases hi : s.input with
  | nil =>
    simp only [step, h.input_eq, hi]
    exact h
  | cons e rest =>
    rw [step_of_event hi, step_of_event (h.input_eq.trans hi)]
    exact sameOutcome_handleEvent (h.map (fun u => { u with input := rest }) (fun _ => rfl) rfl) e

end

/-- Settles O42: no operation reads BUF but through the chunk, and the one that makes a dead slot live writes it. -/
theorem deadSlotsAreInvisible : Obligations.DeadSlotsAreInvisible := by
  unfold Obligations.DeadSlotsAreInvisible
  exact fun s t h => ⟨h.status_eq, sameOutcome_step h⟩

end Sys2Proof.Machine
end

section
/-! PROOFS. The opcode map (R71) and the ignored field RSVD (R73). -/

namespace Sys2Proof

/-! ## The word, its fields and its command -/

/-- A word is put together from its own three fields (R70). -/
theorem cmdWord_fields (w : Word) : cmdWord (opOf w) (rsvdOf w) (dataOf w) = w := by
  apply BitVec.eq_of_toNat_eq
  have hrsvd : (rsvdOf w).toNat = w.toNat / 256 % 16 := by
    simp [rsvdOf, BitVec.extractLsb'_toNat, Nat.shiftRight_eq_div_pow]
  rw [cmdWord_toNat, opOf_toNat, dataOf_toNat, hrsvd]
  omega

/-- The opcode map by the word as a number: OP is the word divided by 4096 (R71). -/
theorem decode_eq (w : Word) :
    decode w =
      if w.toNat / 4096 = 0 then .char (BitVec.ofNat 8 w.toNat) else if w.toNat / 4096 = 1 then .eos
      else if w.toNat / 4096 = 2 then .sinkfail (BitVec.ofNat 8 w.toNat)
      else if w.toNat / 4096 = 3 then .exterr (BitVec.ofNat 8 w.toNat)
      else if w.toNat / 4096 < 8 then .reserved47 (BitVec.ofNat 4 (w.toNat / 4096))
      else .reserved8F (BitVec.ofNat 4 (w.toNat / 4096)) := by
  have hop : BitVec.ofNat 4 (w.toNat / 4096) = opOf w := by rw [← opOf_toNat, BitVec.ofNat_toNat, BitVec.setWidth_eq]
  have hdata : BitVec.ofNat 8 w.toNat = dataOf w := by
    apply BitVec.eq_of_toNat_eq
    rw [BitVec.toNat_ofNat, dataOf_toNat]
  rw [hop, hdata, decode, decodeFields_eq, opOf_toNat]

/-- Every OP and DATA select a command of the encoding space. -/
theorem decodeFields_wellFormed (op : BitVec 4) (data : Byte) : (decodeFields op data).WellFormed := by
  rw [decodeFields_eq]
  split_ifs
  · rfl
  · rfl
  · rfl
  · rfl
  · simp only [Instr.WellFormed, Instr.wellFormed, decide_eq_true_eq]; omega
  · simp only [Instr.WellFormed, Instr.wellFormed, decide_eq_true_eq]; omega

theorem decode_wellFormed (w : Word) : (decode w).WellFormed := decodeFields_wellFormed _ _

/-- The encoder writes the OP that selected the command. -/
theorem opOf_encode_decodeFields (op : BitVec 4) (data : Byte) : opOf (encode (decodeFields op data)) = op := by
  unfold decodeFields
  split_ifs with hchar heos hsinkfail hexterr hlow
  · rw [hchar, encode, opOf_cmdWord]
  · rw [heos, encode, opOf_cmdWord]
  · rw [hsinkfail, encode, opOf_cmdWord]
  · rw [hexterr, encode, opOf_cmdWord]
  · rw [encode, opOf_cmdWord]
  · rw [encode, opOf_cmdWord]

/-! ## The rows of the table -/

/-- OP alone decides whether a word is of a row (R71). -/
theorem OpcodeRow.holds_congr {r : OpcodeRow} (hr : r ∈ opcodeRows) {v w : Word} (h : opOf v = opOf w) :
    r.holds v = r.holds w := by
  have hrows : opcodeRows.map (·.holds v) = opcodeRows.map (·.holds w) := by
    rw [← cmdWord_fields v, ← cmdWord_fields w, Laws.TableRow.rows_of_op, Laws.TableRow.rows_of_op, h]
  exact List.map_inj_left.mp hrows r hr

/-- The word of a well-formed command is of exactly the row with its mnemonic. -/
theorem holds_encode_iff {i : Instr} (hi : i.WellFormed) {r : OpcodeRow} (hr : r ∈ opcodeRows) :
    r.holds (encode i) = true ↔ r.mnemonic = i.mnemonic := by
  cases i with
  | char c => exact Laws.TableRow.char c hi r hr
  | eos => exact Laws.TableRow.eos hi r hr
  | sinkfail code => exact Laws.TableRow.sinkfail code hi r hr
  | exterr code => exact Laws.TableRow.exterr code hi r hr
  | reserved47 op => exact Laws.TableRow.reserved47 op hi r hr
  | reserved8F op => exact Laws.TableRow.reserved8F op hi r hr

/-- Any word is of exactly the row with the mnemonic of its command. -/
theorem holds_iff_mnemonic_decode (w : Word) {r : OpcodeRow} (hr : r ∈ opcodeRows) :
    r.holds w = true ↔ r.mnemonic = (decode w).mnemonic := by
  have hop : opOf w = opOf (encode (decode w)) := (opOf_encode_decodeFields _ _).symm
  rw [OpcodeRow.holds_congr hr hop, holds_encode_iff (decode_wellFormed w) hr]

/-- Settles O2, by the opcode map read as a number, and by the row of the word the encoder writes for the command. -/
theorem opcodeSelectsOneRow : Obligations.OpcodeSelectsOneRow := by
  unfold Obligations.OpcodeSelectsOneRow
  intro w
  refine ⟨fun h => ?_, fun h => ?_, fun h => ?_, fun h => ?_, fun h4 h7 => ?_, fun h8 => ?_,
    fun r hr => holds_iff_mnemonic_decode w hr⟩
  · rw [decode_eq, if_pos h]
  · rw [decode_eq, if_neg (by omega), if_pos h]
  · rw [decode_eq, if_neg (by omega), if_neg (by omega), if_pos h]
  · rw [decode_eq, if_neg (by omega), if_neg (by omega), if_neg (by omega), if_pos h]
  · rw [decode_eq, if_neg (by omega), if_neg (by omega), if_neg (by omega), if_neg (by omega), if_pos (by omega)]
  · rw [decode_eq, if_neg (by omega), if_neg (by omega), if_neg (by omega), if_neg (by omega), if_neg (by omega)]

/-- Settles O3: the command of a word is decoded from OP and DATA alone. -/
theorem reservedFieldIgnored : Obligations.ReservedFieldIgnored := by
  unfold Obligations.ReservedFieldIgnored
  intro op rsvd data s
  have hdecode : decode (op ++ rsvd ++ data) = decode (op ++ 0#4 ++ data) :=
    (decode_cmdWord op rsvd data).trans (decode_cmdWord op 0#4 data).symm
  rw [hdecode]

end Sys2Proof
end

section
/-! PROOFS. CHAR and EOS (R100 to R107): one equation for each of their cases, and the statements about them. -/

namespace Sys2Proof.Machine

open Sys2Proof

/-! ## CHAR -/

/-- WS is the four bytes of R32. -/
theorem isWhitespace_iff (c : Byte) :
    isWhitespace c = true ↔ c = 0x20#8 ∨ c = 0x09#8 ∨ c = 0x0A#8 ∨ c = 0x0D#8 := by
  simp [isWhitespace, whitespace]

theorem isWhitespace_eq_false {c : Byte} (h20 : c ≠ 0x20#8) (h09 : c ≠ 0x09#8) (h0A : c ≠ 0x0A#8) (h0D : c ≠ 0x0D#8) :
    isWhitespace c = false := by
  rw [Bool.eq_false_iff, Ne, isWhitespace_iff]
  simp [h20, h09, h0A, h0D]

/-- CHAR in DONE (R104). -/
theorem exec_char_of_done {s : State} (c : Byte) (hr : s.runState = .done) :
    exec (.char c) s = .next (s.latch .other 0xF0#8) := by
  have hlive : s.runState ≠ .halted := by simp [hr]
  have hpayload : protocolPayload 0x0#4 = 0xF0#8 := by decide
  rw [exec, execChar, unlessHalted_of_live _ hlive, charEffect, if_pos hr, hpayload, raiseError, ends_outcome]

/-- CHAR of whitespace, in RUNNING and in HALTED alike (R103, R162). -/
theorem exec_char_whitespace {s : State} {c : Byte} (hr : s.runState ≠ .done) (hc : isWhitespace c = true) :
    exec (.char c) s = .next s := by
  by_cases hh : s.runState = .halted
  · exact exec_of_halted _ hh
  · rw [exec_char_of_running c (running_of_live hh hr), if_pos hc]

/-- CHAR of any other byte when the chunk is not filled by it (R101). -/
theorem exec_char_append {s : State} {c : Byte} (hr : s.runState = .running) (hc : isWhitespace c = false)
    (hl : s.chunkLen.toNat < 7) : exec (.char c) s = .next (s.append c) := by
  have hnotfull : (s.append c).chunkLen ≠ 8#4 := by
    rw [append_chunkLen]
    bv_omega
  rw [exec_char_of_running c hr, hc, if_neg (by simp), flushIfFull, if_neg hnotfull, goesOn_outcome]

/-- CHAR of any other byte when it is the eighth of the chunk (R102). -/
theorem exec_char_flush {s : State} {c : Byte} (hr : s.runState = .running) (hc : isWhitespace c = false)
    (hl : s.chunkLen = 7#4) : exec (.char c) s = (flush (s.append c)).outcome := by
  have hfull : (s.append c).chunkLen = 8#4 := by
    rw [append_chunkLen, hl]
    decide
  rw [exec_char_of_running c hr, hc, if_neg (by simp), flushIfFull, if_pos hfull]

/-- The eighth character and those before it are the chunk that is flushed. -/
theorem append_chunk_of_seven {s : State} (c : Byte) (hl : s.chunkLen = 7#4) : (s.append c).chunk = s.chunk ++ [c] :=
  append_chunk s c (by simp [hl])

/-- The eighth character of a chunk that decodes, before a sink that takes every byte. -/
theorem exec_char_flush_of_ok {s : State} {c : Byte} {bytes : List Byte} (hr : s.runState = .running)
    (hc : isWhitespace c = false) (hl : s.chunkLen = 7#4) (hd : decodeChunk (s.chunk ++ [c]) = .ok bytes)
    (hs : s.sink = .always) :
    exec (.char c) s = .next ((s.append c).emptyChunk.put (formatOut s.hexEn bytes) .always) := by
  rw [← append_chunk_of_seven c hl] at hd
  rw [exec_char_flush hr hc hl, flush_of_ok hd hs, append_hexEn, goesOn_outcome]

/-- The eighth character of a chunk that does not decode. -/
theorem exec_char_flush_of_err {s : State} {c : Byte} {kind : ErrKind} {payload : Byte} (hr : s.runState = .running)
    (hc : isWhitespace c = false) (hl : s.chunkLen = 7#4) (hd : decodeChunk (s.chunk ++ [c]) = .err kind payload) :
    exec (.char c) s = .next ((s.append c).emptyChunk.latch kind payload) := by
  rw [← append_chunk_of_seven c hl] at hd
  rw [exec_char_flush hr hc hl, flush_of_err hd, ends_outcome]

/-! ## EOS -/

/-- EOS in DONE (R107). -/
theorem exec_eos_of_done {s : State} (hr : s.runState = .done) : exec .eos s = .next (s.latch .other 0xF1#8) := by
  have hlive : s.runState ≠ .halted := by simp [hr]
  have hpayload : protocolPayload 0x1#4 = 0xF1#8 := by decide
  rw [exec, execEos, unlessHalted_of_live _ hlive, eosEffect, if_pos hr, hpayload, raiseError, ends_outcome]

/-- EOS with an empty chunk (R106). -/
theorem exec_eos_empty {s : State} (hr : s.runState = .running) (hl : s.chunkLen = 0#4) :
    exec .eos s = .next s.markDone := by
  rw [exec_eos_of_running hr, flushIfAny, if_neg (by simp [hl]), goesOn_andThen, goesOn_outcome]

/-- EOS with a chunk that decodes, before a sink that takes every byte (R106). -/
theorem exec_eos_flush_of_ok {s : State} {bytes : List Byte} (hr : s.runState = .running) (hl : s.chunkLen ≠ 0#4)
    (hd : decodeChunk s.chunk = .ok bytes) (hs : s.sink = .always) :
    exec .eos s = .next (s.emptyChunk.put (formatOut s.hexEn bytes) .always).markDone := by
  rw [exec_eos_of_running hr, flushIfAny, if_pos hl, flush_of_ok hd hs, goesOn_andThen, goesOn_outcome]

/-- EOS with a chunk that does not decode (R106, R161). -/
theorem exec_eos_flush_of_err {s : State} {kind : ErrKind} {payload : Byte} (hr : s.runState = .running)
    (hl : s.chunkLen ≠ 0#4) (hd : decodeChunk s.chunk = .err kind payload) :
    exec .eos s = .next (s.emptyChunk.latch kind payload) := by
  rw [exec_eos_of_running hr, flushIfAny, if_pos hl, flush_of_err hd, ends_andThen, ends_outcome]

/-! ## The statements -/

/-- Settles O15: whitespace is dropped, and any other byte is appended or, as the eighth, flushed with its chunk. -/
theorem whitespaceIsDropped : Obligations.WhitespaceIsDropped := by
  unfold Obligations.WhitespaceIsDropped
  intro s c hr
  refine ⟨fun hc => exec_char_whitespace (by simp [hr]) ((isWhitespace_iff c).mpr hc), ?_⟩
  rintro ⟨h20, h09, h0A, h0D⟩
  have hc := isWhitespace_eq_false h20 h09 h0A h0D
  refine ⟨fun hl => ⟨_, exec_char_append hr hc hl, append_chunk s c (by omega)⟩, fun hl hs => ?_⟩
  cases hd : decodeChunk (s.chunk ++ [c]) with
  | ok bytes => exact ⟨_, exec_char_flush_of_ok hr hc hl hd hs, by simp⟩
  | err kind payload => exact ⟨_, exec_char_flush_of_err hr hc hl hd, by simp⟩

/-- Settles O16, with the append of the model as the state between the append and the flush. -/
theorem charAppendsToChunk : Obligations.CharAppendsToChunk := by
  unfold Obligations.CharAppendsToChunk
  intro s c hr hl h20 h09 h0A h0D
  have hc := isWhitespace_eq_false h20 h09 h0A h0D
  refine ⟨s.append c, rfl, fun i hi => ?_, append_chunkLen_toNat s c hl, exec_char_append hr hc, fun h7 => ?_⟩
  · simp [Vector.getElem_setIfInBounds, eq_comm]
  · exact exec_char_flush hr hc (BitVec.eq_of_toNat_eq h7)

/-- Settles O17, by the two outcomes of the decode. -/
theorem eighthCharacterFlushes : Obligations.EighthCharacterFlushes := by
  unfold Obligations.EighthCharacterFlushes
  intro s c hr hl h20 h09 h0A h0D
  have hc := isWhitespace_eq_false h20 h09 h0A h0D
  refine ⟨fun bytes hd hs => ⟨_, exec_char_flush_of_ok hr hc hl hd hs, ?_⟩,
    fun kind payload hd => ⟨_, exec_char_flush_of_err hr hc hl hd, rfl⟩⟩
  rw [← hs]
  rfl

/-- Settles O18: the DONE check comes before the whitespace test. -/
theorem charAfterEndOfStream : Obligations.CharAfterEndOfStream := by
  unfold Obligations.CharAfterEndOfStream
  exact fun s c hr => exec_char_of_done c hr

/-- Settles O19, by the length of the chunk and the two outcomes of the decode. -/
theorem eosFlushesTheLeftover : Obligations.EosFlushesTheLeftover := by
  unfold Obligations.EosFlushesTheLeftover
  intro s hr
  refine ⟨exec_eos_empty hr, fun hl _ => ?_⟩
  have hne : s.chunkLen ≠ 0#4 := by
    rintro h
    simp [h] at hl
  refine ⟨fun bytes hd hs => ?_, fun kind payload hd => exec_eos_flush_of_err hr hne hd⟩
  rw [exec_eos_flush_of_ok hr hne hd hs, ← hs]
  rfl

/-- Settles O20: EOS in DONE raises before it looks at the chunk. -/
theorem secondEosIsAnError : Obligations.SecondEosIsAnError := by
  unfold Obligations.SecondEosIsAnError
  exact fun s hr => exec_eos_of_done hr

end Sys2Proof.Machine
end

section
/-! PROOFS. Streams of CHAR commands (R108 to R110): whitespace falls out of them, what is left is decoded chunk by
chunk, and the streams that end in DONE are those all of whose chunks decode. -/

namespace Sys2Proof.Machine

open Sys2Proof

/-! ## Whitespace in a stream -/

/-- Only EOS enters DONE. -/
theorem exec_char_runState_ne_done {s t : State} {c : Byte} (h : exec (.char c) s = .next t) (hr : s.runState ≠ .done) :
    t.runState ≠ .done := by
  obtain rfl | ⟨-, kind, payload, -, rfl⟩ | ⟨-, d, -, -, -, rfl⟩ | ⟨-, hi, -⟩ | ⟨r, kind, payload, -, -, rfl, -⟩ |
    ⟨r, bytes, hrun, -, ⟨hi, -⟩ | ⟨d, -, -, -, rfl, rfl⟩⟩ := exec_next_cases h
  · exact hr
  · simp
  · exact hr
  · cases hi
  · simp
  · cases hi
  · simp [hrun]

theorem dataBytes_cons_whitespace {c : Byte} (cs : List Byte) (hc : isWhitespace c = true) :
    dataBytes (c :: cs) = dataBytes cs := by
  simp [dataBytes, hc]

theorem dataBytes_cons_data {c : Byte} (cs : List Byte) (hc : isWhitespace c = false) :
    dataBytes (c :: cs) = c :: dataBytes cs := by
  simp [dataBytes, hc]

/-- The characters of a stream have the effect of those that are not whitespace (R109). -/
theorem runWords_charWords_dataBytes (cs : List Byte) :
    ∀ s : State, s.runState ≠ .done → runWords (charWords cs) s = runWords (charWords (dataBytes cs)) s := by
  induction cs with
  | nil => exact fun _ _ => rfl
  | cons c cs ih =>
    intro s hr
    rw [runWords_char_cons]
    cases hc : isWhitespace c with
    | true => rw [exec_char_whitespace hr hc, dataBytes_cons_whitespace cs hc, ← ih s hr]
    | false =>
      rw [dataBytes_cons_data cs hc, runWords_char_cons]
      cases hexec : exec (.char c) s with
      | next t => exact ih t (exec_char_runState_ne_done hexec hr)
      | fault r => rfl
      | refused r => rfl

/-- A stream has the effect of its characters that are not whitespace. -/
theorem runWords_streamWords_dataBytes (cs : List Byte) {s : State} (hr : s.runState ≠ .done) :
    runWords (streamWords cs) s = runWords (streamWords (dataBytes cs)) s := by
  rw [streamWords, streamWords, runWords_append, runWords_append, runWords_charWords_dataBytes cs s hr]

/-- Settles O44: both streams have the effect of their common characters that are not whitespace. -/
theorem whitespaceIsTransparent : Obligations.WhitespaceIsTransparent := by
  unfold Obligations.WhitespaceIsTransparent
  intro cs ds s hr hdata
  rw [runWords_streamWords_dataBytes cs hr, hdata, ← runWords_streamWords_dataBytes ds hr]

/-! ## A stream is decoded by chunks -/

/-- In HALTED no run has an effect (R162). -/
theorem runWords_of_halted (ws : List Word) {s : State} (hr : s.runState = .halted) : runWords ws s = .next s := by
  induction ws with
  | nil => rfl
  | cons w ws ih => rw [runWords, exec_of_halted _ hr]; exact ih

theorem runWords_streamWords_nil (s : State) : runWords (streamWords []) s = exec .eos s := by
  show runWords [encode .eos] s = _
  rw [runWords, decode_encode_eos]
  cases exec .eos s <;> rfl

/-- A stream goes on from the state its first character leaves. -/
theorem runWords_streamWords_cons {c : Byte} {s t : State} (cs : List Byte) (h : exec (.char c) s = .next t) :
    runWords (streamWords (c :: cs)) s = runWords (streamWords cs) t := by
  show runWords (encode (.char c) :: streamWords cs) s = _
  rw [runWords, decode_encode_char, h]

/-- A run from `s` has ended in `t` with the output and the error of `r`: in DONE if there is no error (R108). -/
structure EndsStream (s t : State) (r : List Byte × Option (ErrKind × Byte)) : Prop where
  chunkLen : t.chunkLen = 0#4
  outLog : t.outLog = s.outLog ++ r.1
  done : r.2 = none → t.runState = .done ∧ t.errKind = s.errKind ∧ t.errPayload = s.errPayload
  halted : ∀ kind payload, r.2 = some (kind, payload) →
    t.runState = .halted ∧ t.errKind = kind ∧ t.errPayload = payload

theorem EndsStream.done_iff {s t : State} {r : List Byte × Option (ErrKind × Byte)} (h : EndsStream s t r) :
    t.runState = .done ↔ r.2 = none := by
  refine ⟨fun ht => ?_, fun hr => (h.done hr).1⟩
  cases hr : r.2 with
  | none => rfl
  | some e =>
    rw [(h.halted e.1 e.2 hr).1] at ht
    cases ht

theorem streamResult_cons_of_ok {hexEn : Bool} {ch bytes : List Byte} (chs : List (List Byte))
    (hd : decodeChunk ch = .ok bytes) :
    streamResult hexEn (ch :: chs) =
      (formatOut hexEn bytes ++ (streamResult hexEn chs).1, (streamResult hexEn chs).2) := by
  rw [streamResult, hd]

theorem streamResult_cons_of_err {hexEn : Bool} {ch : List Byte} {kind : ErrKind} {payload : Byte}
    (chs : List (List Byte)) (hd : decodeChunk ch = .err kind payload) :
    streamResult hexEn (ch :: chs) = ([], some (kind, payload)) := by
  rw [streamResult, hd]

/-- The raise of a failing chunk is the end of the stream (R127). -/
theorem endsStream_latch {s r : State} {ch : List Byte} {kind : ErrKind} {payload : Byte} (chs : List (List Byte))
    (hd : decodeChunk ch = .err kind payload) (hout : r.outLog = s.outLog) :
    EndsStream s (r.emptyChunk.latch kind payload) (streamResult s.hexEn (ch :: chs)) := by
  rw [streamResult_cons_of_err chs hd]
  exact ⟨rfl, by simp [hout], by simp, by simp⟩

/-- What a stream does after a chunk that decodes is what is left of its result. -/
theorem EndsStream.of_flush {s r t : State} {ch bytes : List Byte} {chs : List (List Byte)}
    (hd : decodeChunk ch = .ok bytes) (h : EndsStream r t (streamResult s.hexEn chs))
    (hout : r.outLog = s.outLog ++ formatOut s.hexEn bytes) (hkind : r.errKind = s.errKind)
    (hpayload : r.errPayload = s.errPayload) : EndsStream s t (streamResult s.hexEn (ch :: chs)) := by
  rw [streamResult_cons_of_ok chs hd]
  refine ⟨h.chunkLen, ?_, ?_, h.halted⟩
  · rw [h.outLog, hout, List.append_assoc]
  · rw [← hkind, ← hpayload]
    exact h.done

/-- The end of a stream that finds an empty chunk. -/
theorem endsStream_markDone {s : State} (hl : s.chunkLen = 0#4) : EndsStream s s.markDone ([], none) :=
  ⟨hl, by simp, by simp, by simp⟩

/-- The end of a stream: EOS decodes the chunk that is left, if there is one (R106). -/
theorem exec_eos_endsStream {s : State} (hr : s.runState = .running) (hs : s.sink = .always) (hl : s.LenInRange) :
    ∃ t, exec .eos s = .next t ∧ EndsStream s t (streamResult s.hexEn (chunksOf8 s.chunk)) := by
  by_cases hempty : s.chunkLen = 0#4
  · have hchunk : s.chunk = [] := by simp [State.chunk, hempty]
    rw [hchunk]
    exact ⟨_, exec_eos_empty hr hempty, endsStream_markDone hempty⟩
  · have hpos : s.chunkLen.toNat ≠ 0 := fun h => hempty (BitVec.eq_of_toNat_eq h)
    have hlength : s.chunk.length = s.chunkLen.toNat := by
      rw [length_chunk]
      omega
    have hne : s.chunk ≠ [] := List.ne_nil_of_length_pos (by omega)
    rw [chunksOf8_short s.chunk (by omega) hne]
    cases hd : decodeChunk s.chunk with
    | ok bytes =>
      exact ⟨_, exec_eos_flush_of_ok hr hempty hd hs, .of_flush hd (endsStream_markDone rfl) rfl rfl rfl⟩
    | err kind payload => exact ⟨_, exec_eos_flush_of_err hr hempty hd, endsStream_latch [] hd rfl⟩

/-- A stream without whitespace, taken up with any chunk in BUF: it is decoded as the chunk and the stream together are
by chunks of eight (R108). -/
theorem runWords_streamWords_endsStream (cs : List Byte) :
    ∀ s : State, s.runState = .running → s.sink = .always → s.LenInRange → (∀ c ∈ cs, isWhitespace c = false) →
      ∃ t, runWords (streamWords cs) s = .next t ∧
        EndsStream s t (streamResult s.hexEn (chunksOf8 (s.chunk ++ cs))) := by
  induction cs with
  | nil =>
    intro s hr hs hl _
    rw [runWords_streamWords_nil, List.append_nil]
    exact exec_eos_endsStream hr hs hl
  | cons c cs ih =>
    intro s hr hs hl hcs
    obtain ⟨hc, hcs⟩ := List.forall_mem_cons.mp hcs
    rw [List.append_cons]
    by_cases hlt : s.chunkLen.toNat < 7
    · have hlen := append_chunkLen_toNat s c hl
      obtain ⟨t, hrun, hends⟩ := ih (s.append c) hr hs (by omega) hcs
      rw [append_chunk s c hl] at hends
      -- the append changes nothing that `EndsStream` looks at
      exact ⟨t, by rw [runWords_streamWords_cons cs (exec_char_append hr hc hlt), hrun],
        hends.chunkLen, hends.outLog, hends.done, hends.halted⟩
    · have h7 : s.chunkLen = 7#4 := BitVec.eq_of_toNat_eq (by simp; omega)
      have hlength : (s.chunk ++ [c]).length = 8 := by simp [length_chunk, h7]
      rw [chunksOf8_append _ cs hlength]
      cases hd : decodeChunk (s.chunk ++ [c]) with
      | ok bytes =>
        obtain ⟨t, hrun, hends⟩ :=
          ih ((s.append c).emptyChunk.put (formatOut s.hexEn bytes) .always) hr rfl (by simp) hcs
        exact ⟨t, by rw [runWords_streamWords_cons cs (exec_char_flush_of_ok hr hc h7 hd hs), hrun],
          .of_flush hd hends rfl rfl rfl⟩
      | err kind payload =>
        exact ⟨(s.append c).emptyChunk.latch kind payload,
          by rw [runWords_streamWords_cons cs (exec_char_flush_of_err hr hc h7 hd), runWords_of_halted _ rfl],
          endsStream_latch _ hd rfl⟩

/-- A whole stream, from a state in which one starts. -/
theorem State.StartsStream.endsStream {s : State} (h : s.StartsStream) (cs : List Byte) :
    ∃ t, runWords (streamWords cs) s = .next t ∧
      EndsStream s t (streamResult s.hexEn (chunksOf8 (dataBytes cs))) := by
  obtain ⟨hr, hl, -, -, -, -, hs⟩ := h
  have hchunk : s.chunk = [] := by simp [State.chunk, hl]
  rw [runWords_streamWords_dataBytes cs (by simp [hr])]
  simpa [hchunk] using
    runWords_streamWords_endsStream (dataBytes cs) s hr hs (by simp [hl]) (dataBytes_not_whitespace cs)

/-! ## The streams that end in DONE -/

/-- Step 2 finds no bad character exactly where every character is in the alphabet (R123). -/
theorem decodeChunk_ok_iff (ch : List Byte) :
    (∃ bytes, decodeChunk ch = .ok bytes) ↔ nbytes ch.length ≠ none ∧ ∀ c ∈ ch, validChar c = true := by
  obtain ⟨hn, hd⟩ | ⟨n, bad, hn, hl, hd⟩ | ⟨n, vs, hn, hl, hd⟩ := decodeChunk_cases ch
  · simp [hn, hd]
  · obtain ⟨good, rest, rfl, -, hbad⟩ := lookupAll_error hl
    rw [hd]
    refine iff_of_false (by simp) fun h => ?_
    simp [h.2 bad (by simp)] at hbad
  · obtain ⟨-, hvalid, -⟩ := lookupAll_ok hl
    exact iff_of_true ⟨_, hd⟩ ⟨by simp [hn], hvalid⟩

/-- The lengths of a chunk that can decode (R121). -/
theorem nbytes_ne_none_iff (len : Nat) : nbytes len ≠ none ↔ len ∈ [0, 2, 4, 5, 7, 8] := by
  refine ⟨fun h => ?_, fun h hn => ?_⟩
  · obtain ⟨n, hn⟩ := Option.ne_none_iff_exists'.mp h
    have := nbytes_eq_some hn
    simp only [List.mem_cons, List.not_mem_nil, or_false]
    omega
  · have := nbytes_eq_none hn
    simp only [List.mem_cons, List.not_mem_nil, or_false] at h
    omega

/-- A stream is the eight characters of its first chunk and the stream after them, or too short to fill a chunk. -/
theorem chunks_induction {motive : List Byte → Prop} (short : ∀ d, d.length < 8 → motive d)
    (full : ∀ d rest, d.length = 8 → motive rest → motive (d ++ rest)) (cs : List Byte) : motive cs := by
  by_cases hlt : cs.length < 8
  · exact short cs hlt
  · rw [← List.take_append_drop 8 cs]
    exact full _ _ (by simp; omega) (chunks_induction short full (cs.drop 8))
termination_by cs.length
decreasing_by simp only [List.length_drop]; omega

/-- Every chunk of a stream decodes exactly when the leftover has a length that can and every character is in the
alphabet (R110). -/
theorem chunksOf8_decode_iff (cs : List Byte) :
    (∀ ch ∈ chunksOf8 cs, ∃ bytes, decodeChunk ch = .ok bytes) ↔
      cs.length % 8 ∈ [0, 2, 4, 5, 7] ∧ ∀ c ∈ cs, validChar c = true := by
  induction cs using chunks_induction with
  | short d hlt =>
    by_cases hne : d = []
    · simp [hne, chunksOf8]
    · rw [chunksOf8_short d hlt hne, List.forall_mem_singleton, decodeChunk_ok_iff, nbytes_ne_none_iff,
        Nat.mod_eq_of_lt hlt]
      have h8 : d.length ≠ 8 := by omega
      simp [h8]
  | full d rest h8 ih =>
    have hlength : (d ++ rest).length % 8 = rest.length % 8 := by
      rw [List.length_append]
      omega
    have hmem : 8 ∈ [0, 2, 4, 5, 7, 8] := by decide
    rw [chunksOf8_append d rest h8, List.forall_mem_cons, ih, decodeChunk_ok_iff, nbytes_ne_none_iff, h8, hlength,
      List.forall_mem_append]
    simp only [hmem, true_and]
    exact and_left_comm

/-- A stream has no error exactly when all its chunks decode. -/
theorem streamResult_error_eq_none_iff (hexEn : Bool) (chs : List (List Byte)) :
    (streamResult hexEn chs).2 = none ↔ ∀ ch ∈ chs, ∃ bytes, decodeChunk ch = .ok bytes := by
  induction chs with
  | nil => simp [streamResult]
  | cons ch chs ih =>
    rw [List.forall_mem_cons]
    cases hd : decodeChunk ch with
    | ok bytes => rw [streamResult_cons_of_ok chs hd, ih]; simp
    | err kind payload => rw [streamResult_cons_of_err chs hd]; simp

/-- The output of chunks that all decode is that of one after the other. -/
theorem streamResult_output (hexEn : Bool) {chs : List (List Byte)}
    (h : ∀ ch ∈ chs, ∃ bytes, decodeChunk ch = .ok bytes) :
    ∃ blocks : List (List Byte), chs.map decodeChunk = blocks.map .ok ∧
      (streamResult hexEn chs).1 = blocks.flatMap (formatOut hexEn) := by
  induction chs with
  | nil => exact ⟨[], rfl, rfl⟩
  | cons ch chs ih =>
    obtain ⟨⟨bytes, hd⟩, hrest⟩ := List.forall_mem_cons.mp h
    obtain ⟨blocks, hmap, hout⟩ := ih hrest
    exact ⟨bytes :: blocks, by simp [hd, hmap], by rw [streamResult_cons_of_ok chs hd, hout, List.flatMap_cons]⟩

/-- Settles O46: a run ends in DONE when no chunk of its stream fails, and its output is that of the chunks. -/
theorem doneExactlyForValidStreams : Obligations.DoneExactlyForValidStreams := by
  unfold Obligations.DoneExactlyForValidStreams
  intro cs s hstart
  obtain ⟨t, hrun, hends⟩ := hstart.endsStream cs
  obtain ⟨-, -, -, -, hempty, -⟩ := hstart
  have hdone := hends.done_iff.trans (streamResult_error_eq_none_iff _ _)
  refine ⟨t, hrun, hdone.trans (chunksOf8_decode_iff _), fun ht => ?_⟩
  obtain ⟨blocks, hmap, hout⟩ := streamResult_output s.hexEn (hdone.mp ht)
  exact ⟨blocks, hmap, by rw [hends.outLog, hempty, hout]; rfl⟩

end Sys2Proof.Machine
end

section
/-! PROOFS. The Decode Engine (R121 to R126): which of its three answers a chunk gets, and the repack as a stream of
bits. -/

namespace Sys2Proof.Machine

open Sys2Proof

/-! ## Step 2, character by character -/

/-- A character of the alphabet puts its symbol in front of what the characters after it give (R123). -/
theorem lookupAll_cons_of_some {c : Byte} {v : Symbol} (cs : List Byte) (h : decLut c = some v) :
    lookupAll (c :: cs) = (lookupAll cs).map (v :: ·) := by
  simp only [lookupAll, h]
  cases lookupAll cs <;> rfl

/-- A character outside the alphabet is reported, whatever comes after it (R123). -/
theorem lookupAll_cons_of_not_valid {c : Byte} (cs : List Byte) (h : validChar c = false) :
    lookupAll (c :: cs) = .error c := by
  have hnone : decLut c = none := by simpa [validChar] using h
  simp [lookupAll, hnone]

/-- Valid characters in front of a bad one do not change what step 2 reports. -/
theorem lookupAll_first_bad {good : List Byte} {bad : Byte} (rest : List Byte)
    (hgood : ∀ c ∈ good, validChar c = true) (hbad : validChar bad = false) :
    lookupAll (good ++ bad :: rest) = .error bad := by
  induction good with
  | nil => exact lookupAll_cons_of_not_valid rest hbad
  | cons c cs ih =>
    obtain ⟨hc, hcs⟩ := List.forall_mem_cons.mp hgood
    obtain ⟨v, hv⟩ : ∃ v, decLut c = some v := Option.isSome_iff_exists.mp hc
    rw [List.cons_append, lookupAll_cons_of_some _ hv, ih hcs]
    rfl

/-- A chunk of valid characters has its symbols. -/
theorem exists_lookupAll_of_valid {ch : List Byte} (h : ∀ c ∈ ch, validChar c = true) :
    ∃ vs, lookupAll ch = .ok vs := by
  cases hl : lookupAll ch with
  | ok vs => exact ⟨vs, rfl⟩
  | error bad =>
    obtain ⟨good, rest, rfl, -, hbad⟩ := lookupAll_error hl
    simp [h bad (by simp)] at hbad

/-- One valid character more at the end gives one symbol more at the end. -/
theorem lookupAll_append_singleton {ch : List Byte} {us : List Symbol} {c : Byte} {v : Symbol}
    (hl : lookupAll ch = .ok us) (hc : decLut c = some v) : lookupAll (ch ++ [c]) = .ok (us ++ [v]) := by
  obtain ⟨-, hvalid, hmap⟩ := lookupAll_ok hl
  have hc' : validChar c = true := by simp [validChar, hc]
  obtain ⟨vs, hvs⟩ := exists_lookupAll_of_valid (ch := ch ++ [c]) (by simpa [or_imp, forall_and, hc'] using hvalid)
  obtain ⟨-, -, hmap'⟩ := lookupAll_ok hvs
  have hsome : vs.map some = (us ++ [v]).map some := by rw [← hmap']; simp [hmap, hc]
  rw [hvs, List.map_injective_iff.mpr (Option.some_injective _) hsome]

/-- The symbol of the character at a place stands at that place (R123). -/
theorem getElem?_of_lookupAll {ch : List Byte} {vs : List Symbol} {i : Nat} {c : Byte} {v : Symbol}
    (hl : lookupAll ch = .ok vs) (hi : ch[i]? = some c) (hc : decLut c = some v) : vs[i]? = some v := by
  obtain ⟨-, -, hmap⟩ := lookupAll_ok hl
  have hat : (ch.map decLut)[i]? = (vs.map some)[i]? := by rw [hmap]
  simpa [hi, hc, eq_comm] using hat

/-! ## Which answer a chunk gets -/

/-- The length check comes first (R122). -/
theorem decodeChunk_of_size {ch : List Byte} (h : nbytes ch.length = none) :
    decodeChunk ch = .err .invalidSize (sizePayload ch.length) := by
  simp [decodeChunk, h]

/-- At a valid length the character check comes next (R123). -/
theorem decodeChunk_of_bad {ch : List Byte} {n : Nat} {bad : Byte} (hn : nbytes ch.length = some n)
    (hl : lookupAll ch = .error bad) : decodeChunk ch = .err .invalidData bad := by
  simp [decodeChunk, hn, hl]

/-- A chunk that passes both checks is repacked (R124). -/
theorem decodeChunk_of_symbols {ch : List Byte} {n : Nat} {vs : List Symbol} (hn : nbytes ch.length = some n)
    (hl : lookupAll ch = .ok vs) : decodeChunk ch = .ok (repack vs n) := by
  simp [decodeChunk, hn, hl]

/-- A valid length has its NBYTES (R121). -/
theorem exists_nbytes {len : Nat} (h : len ∈ [0, 2, 4, 5, 7, 8]) : ∃ n, nbytes len = some n :=
  Option.ne_none_iff_exists'.mp ((nbytes_ne_none_iff len).mpr h)

/-! ## The repack as a stream of bits -/

/-- Bit `p` of a list of words written one after the other, counted from the most significant end. -/
def bitAt {w : Nat} (xs : List (BitVec w)) (p : Nat) : Bool := (xs.getD (p / w) 0#w).getMsbD (p % w)

/-- Bit `i` of word `k`. -/
theorem bitAt_mul_add {w : Nat} (xs : List (BitVec w)) (k : Nat) {i : Nat} (hi : i < w) :
    bitAt xs (w * k + i) = (xs.getD k 0#w).getMsbD i := by
  rw [bitAt, Nat.mul_add_div (by omega), Nat.div_eq_of_lt hi, Nat.mul_add_mod, Nat.mod_eq_of_lt hi, Nat.add_zero]

/-- Lists of one length with the same stream of bits are the same. -/
theorem eq_of_bitAt_eq {w : Nat} {xs ys : List (BitVec w)} (hlen : xs.length = ys.length)
    (h : ∀ p < w * xs.length, bitAt xs p = bitAt ys p) : xs = ys := by
  refine List.ext_getElem hlen fun k hx hy => BitVec.eq_of_getMsbD_eq fun i hi => ?_
  have hp : w * k + i < w * xs.length := by
    calc w * k + i < w * (k + 1) := by rw [Nat.mul_succ]; omega
      _ ≤ w * xs.length := Nat.mul_le_mul_left w hx
  simpa [bitAt_mul_add _ k hi, hx, hy] using h _ hp

/-- V is the stream of the symbols, its last bit at the low end (R124). -/
theorem concatSymbols_eq_bitAt {vs : List Symbol} (hlen : vs.length ≤ 8) {p : Nat} (hp : p < 5 * vs.length) :
    (concatSymbols vs).getLsbD (5 * vs.length - 1 - p) = bitAt vs p := by
  have hdiv : (5 * vs.length - 1 - p) / 5 = vs.length - 1 - p / 5 := by omega
  have hmod : (5 * vs.length - 1 - p) % 5 = 4 - p % 5 := by omega
  have hsymbol : vs.reverse.getD (vs.length - 1 - p / 5) 0#5 = vs.getD (p / 5) 0#5 := by
    rw [List.getD_reverse _ (by omega)]
    congr 1
    omega
  have hbit : p % 5 < 5 := Nat.mod_lt p (by decide)
  rw [concatSymbols_getLsbD vs _ (by omega), hdiv, hmod, hsymbol, bitAt, BitVec.getMsbD]
  simp [hbit]

/-- The bytes of the repack one by one (R125). -/
theorem repack_getD (vs : List Symbol) {n k : Nat} (hk : k < n) :
    (repack vs n).getD k 0#8 = sliceByte (concatSymbols vs) vs.length n k := by
  simp [repack, hk]

/-- Bit `i` of a sliced byte, counted from its most significant end, as a bit of V. -/
theorem sliceByte_getMsbD (v : BitVec 40) (len n k : Nat) {i : Nat} (hi : i < 8) :
    (sliceByte v len n k).getMsbD i = v.getLsbD (discarded len n + 8 * (n - 1 - k) + (7 - i)) := by
  have hlow : 7 - i < 8 := by omega
  simp [sliceByte, BitVec.getMsbD, hi, hlow]

/-- The repack keeps the stream of bits as far as its bytes go (R124). -/
theorem bitAt_repack {vs : List Symbol} {n p : Nat} (hn : nbytes vs.length = some n) (hp : p < 8 * n) :
    bitAt (repack vs n) p = bitAt vs p := by
  have hlens := nbytes_eq_some hn
  have hplace : discarded vs.length n + 8 * (n - 1 - p / 8) + (7 - p % 8) = 5 * vs.length - 1 - p := by
    rw [discarded]
    omega
  calc bitAt (repack vs n) p
      = (sliceByte (concatSymbols vs) vs.length n (p / 8)).getMsbD (p % 8) := by
        rw [bitAt, repack_getD vs (by omega)]
    _ = (concatSymbols vs).getLsbD (5 * vs.length - 1 - p) := by
        rw [sliceByte_getMsbD _ _ _ _ (Nat.mod_lt p (by decide)), hplace]
    _ = bitAt vs p := concatSymbols_eq_bitAt (by omega) (by omega)

/-! ## The bits that are discarded -/

/-- Two symbols that agree above their `d` low bits have the same bits there. -/
theorem getMsbD_eq_of_div_eq {v u : Symbol} {d i : Nat} (h : v.toNat / 2 ^ d = u.toNat / 2 ^ d) (hi : i + d < 5) :
    v.getMsbD i = u.getMsbD i := by
  have hbit (x : Symbol) : x.getMsbD i = (x.toNat / 2 ^ d).testBit (4 - i - d) := by
    have hlt : i < 5 := by omega
    have hplace : 4 - i - d + d = 4 - i := by omega
    simp [BitVec.getMsbD, BitVec.getLsbD, Nat.testBit_div_two_pow, hlt, hplace]
  rw [hbit, hbit, h]

/-- Only the last symbol holds discarded bits, since fewer than five are discarded: the streams of two lists of symbols
that differ in the last one agree up to them (R126). -/
theorem bitAt_append_singleton_congr (us : List Symbol) {v u : Symbol} {d p : Nat}
    (h : v.toNat / 2 ^ d = u.toNat / 2 ^ d) (hp : p + d < 5 * (us.length + 1)) :
    bitAt (us ++ [v]) p = bitAt (us ++ [u]) p := by
  unfold bitAt
  by_cases hbefore : p / 5 < us.length
  · rw [List.getD_append _ _ _ _ hbefore, List.getD_append _ _ _ _ hbefore]
  · have hlast : p / 5 = us.length := by omega
    simpa [hlast] using getMsbD_eq_of_div_eq h (by omega)

/-- The repack does not depend on the discarded bits (R126). -/
theorem repack_append_singleton_congr (us : List Symbol) {v u : Symbol} {n : Nat}
    (hn : nbytes (us.length + 1) = some n)
    (h : v.toNat / 2 ^ discarded (us.length + 1) n = u.toNat / 2 ^ discarded (us.length + 1) n) :
    repack (us ++ [v]) n = repack (us ++ [u]) n := by
  have hlens := nbytes_eq_some hn
  have hroom : 8 * n + discarded (us.length + 1) n = 5 * (us.length + 1) := by
    rw [discarded]
    omega
  refine eq_of_bitAt_eq (by simp) fun p hp => ?_
  rw [length_repack] at hp
  rw [bitAt_repack (by simpa using hn) hp, bitAt_repack (by simpa using hn) hp]
  exact bitAt_append_singleton_congr us h (by omega)

/-! ## The statements -/

/-- Settles O10, by the first of the two checks. -/
theorem lengthCheckComesFirst : Obligations.LengthCheckComesFirst := by
  unfold Obligations.LengthCheckComesFirst
  refine ⟨fun ch _ hlen => decodeChunk_of_size ?_, rfl⟩
  by_contra hn
  have hmem := (nbytes_ne_none_iff ch.length).mp hn
  simp only [List.mem_cons, List.not_mem_nil, or_false] at hmem
  omega

/-- Settles O11, by induction on the valid characters in front of the bad one. -/
theorem firstBadCharacterReported : Obligations.FirstBadCharacterReported := by
  unfold Obligations.FirstBadCharacterReported
  intro good bad rest hlen hgood hbad
  obtain ⟨n, hn⟩ := exists_nbytes (List.mem_cons_of_mem 0 hlen)
  exact decodeChunk_of_bad hn (lookupAll_first_bad rest hgood hbad)

/-- Settles O12: V is the stream of the symbols, and the bytes are cut from it in order. -/
theorem repackIsTheSameBitStream : Obligations.RepackIsTheSameBitStream := by
  unfold Obligations.RepackIsTheSameBitStream
  intro ch hlen hvalid
  obtain ⟨n, hn⟩ := exists_nbytes hlen
  obtain ⟨vs, hl⟩ := exists_lookupAll_of_valid hvalid
  obtain ⟨hvs, -, -⟩ := lookupAll_ok hl
  have hlens := nbytes_eq_some hn
  refine ⟨repack vs n, decodeChunk_of_symbols hn hl, by rw [length_repack]; omega, fun p hp c v hc hv => ?_⟩
  rw [length_repack] at hp
  have hsymbol : vs.getD (p / 5) 0#5 = v := by simp [getElem?_of_lookupAll hl hc hv]
  have hbits : bitAt (repack vs n) p = bitAt vs p := bitAt_repack (by rw [hvs, hn]) hp
  rwa [bitAt, bitAt, hsymbol] at hbits

/-- Settles O13: the two streams of symbols agree as far as the bytes go, and the bytes are no more than that. -/
theorem discardedBitsDoNotMatter : Obligations.DiscardedBitsDoNotMatter := by
  unfold Obligations.DiscardedBitsDoNotMatter
  intro ch c d v u n hn hvalid hc hd hvu
  obtain ⟨us, hl⟩ := exists_lookupAll_of_valid hvalid
  obtain ⟨hus, -, -⟩ := lookupAll_ok hl
  rw [← hus] at hvu
  have hbytes : repack (us ++ [v]) n = repack (us ++ [u]) n := repack_append_singleton_congr us (by rw [hus, hn]) hvu
  refine ⟨repack (us ++ [v]) n, ?_, ?_⟩
  · exact decodeChunk_of_symbols (by simpa using hn) (lookupAll_append_singleton hl hc)
  · rw [hbytes]
    exact decodeChunk_of_symbols (by simpa using hn) (lookupAll_append_singleton hl hd)

end Sys2Proof.Machine
end

section
/-! PROOFS. The Hex Formatter (R140 to R144): `toHex` digit by digit, what a command puts out, and the run in hex mode
as the image of the run in raw mode. -/

namespace Sys2Proof.Machine

open Sys2Proof

/-! ## `toHex` -/

/-- HEX_DIGIT by the number the nibble is (R35). -/
theorem hexDigitAt_toNat : ∀ n : BitVec 4,
    (hexDigitAt n).toNat = if n.toNat ≤ 9 then 0x30 + n.toNat else 0x61 + (n.toNat - 10) := by decide

theorem isHexCode_hexDigitAt : ∀ n : BitVec 4, isHexCode (hexDigitAt n) = true := by decide

theorem toHex_append (xs ys : List Byte) : toHex (xs ++ ys) = toHex xs ++ toHex ys := by
  induction xs with
  | nil => rfl
  | cons x xs ih => rw [List.cons_append, toHex_cons, ih, toHex_cons, List.append_assoc]

theorem length_toHex (bytes : List Byte) : (toHex bytes).length = 2 * bytes.length := by
  induction bytes with
  | nil => rfl
  | cons b bs ih =>
    have htwo : (hexOfByte b).length = 2 := rfl
    rw [toHex_cons, List.length_append, htwo, ih, List.length_cons]
    omega

/-- The digits of byte `k` stand at the places `2k` and `2k + 1`, that of its high nibble first (R140). -/
theorem getElem?_toHex (bytes : List Byte) (k : Nat) (hk : k < bytes.length) :
    (toHex bytes)[2 * k]? = some (hexDigitAt (bytes[k].extractLsb' 4 4)) ∧
    (toHex bytes)[2 * k + 1]? = some (hexDigitAt (bytes[k].extractLsb' 0 4)) := by
  induction bytes generalizing k with
  | nil => cases hk
  | cons b bs ih =>
    cases k with
    | zero => exact ⟨rfl, rfl⟩
    | succ k => exact ih k (Nat.lt_of_succ_lt_succ hk)

theorem isHexCode_of_mem_toHex {bytes : List Byte} {d : Byte} (hd : d ∈ toHex bytes) : isHexCode d = true := by
  induction bytes with
  | nil => cases hd
  | cons b bs ih =>
    rw [toHex_cons, List.mem_append] at hd
    obtain hb | hbs := hd
    · obtain rfl | rfl : d = _ ∨ d = _ := by simpa [hexOfByte] using hb
      · exact isHexCode_hexDigitAt _
      · exact isHexCode_hexDigitAt _
    · exact ih hbs

theorem highNibble_toNat (b : Byte) : (b.extractLsb' 4 4).toNat = b.toNat / 16 := by
  simp only [BitVec.extractLsb'_toNat, Nat.shiftRight_eq_div_pow]
  omega

theorem lowNibble_toNat (b : Byte) : (b.extractLsb' 0 4).toNat = b.toNat % 16 := by
  simp

/-- Settles O8: the digits of each byte by their places, and the value of a digit by that of its nibble. -/
theorem hexFormatterSpec : Obligations.HexFormatterSpec := by
  unfold Obligations.HexFormatterSpec
  refine ⟨fun bytes => ⟨length_toHex bytes, fun k hk => ?_, fun _ => isHexCode_of_mem_toHex⟩, toHex_append⟩
  obtain ⟨hhigh, hlow⟩ := getElem?_toHex bytes k hk
  rw [hhigh, hlow, Option.map_some, Option.map_some, hexDigitAt_toNat, hexDigitAt_toNat, highNibble_toNat,
    lowNibble_toNat]
  exact ⟨rfl, rfl⟩

/-! ## What a command puts out -/

/-- Settles O36, by the six changes a command can make: only the two flushes that decode touch OUT_LOG or the sink. -/
theorem outputIsThatOfAFlush : Obligations.OutputIsThatOfAFlush := by
  unfold Obligations.OutputIsThatOfAFlush
  intro i s t h
  obtain rfl | ⟨-, kind, payload, -, rfl⟩ | ⟨-, c, -, -, -, rfl⟩ | ⟨-, -, -, rfl⟩ |
    ⟨r, kind, payload, -, -, rfl, hr⟩ | ⟨r, bytes, hrun, hd, hout⟩ := exec_next_cases h
  · exact .inl ⟨rfl, rfl⟩
  · exact .inl ⟨rfl, rfl⟩
  · exact .inl ⟨rfl, rfl⟩
  · exact .inl ⟨rfl, rfl⟩
  · obtain ⟨-, -, rfl⟩ | ⟨c, -, -, -, rfl⟩ := hr
    · exact .inl ⟨rfl, rfl⟩
    · exact .inl ⟨rfl, rfl⟩
  · refine .inr ⟨r.chunk, bytes, hd, ?_⟩
    obtain ⟨hi, -, rfl, rfl⟩ | ⟨c, hi, -, hfull, rfl, rfl⟩ := hout
    · exact ⟨by simp, rfl, rfl, fun room hroom => by simp [hroom, formatOut], .inl ⟨hi, rfl⟩⟩
    · exact ⟨by simp [hrun], rfl, rfl, fun room hroom => by simp [hroom, formatOut], .inr ⟨c, hi, rfl, hfull⟩⟩

/-! ## The run in hex mode -/

/-- The state of the hex run that stands beside a state of the raw run (R144). -/
def State.inHex (s : State) : State := { s with hexEn := true, outLog := toHex s.outLog }

/-- A state of a raw run before a sink that takes every byte. -/
structure State.Raw (s : State) : Prop where
  hexEn : s.hexEn = false
  sink : s.sink = .always

@[simp] theorem inHex_chunkLen (s : State) : s.inHex.chunkLen = s.chunkLen := rfl

@[simp] theorem inHex_runState (s : State) : s.inHex.runState = s.runState := rfl

@[simp] theorem inHex_hexEn (s : State) : s.inHex.hexEn = true := rfl

@[simp] theorem inHex_chunk (s : State) : s.inHex.chunk = s.chunk := rfl

/-- What the raw run puts out, the hex run puts out as hex. -/
theorem put_inHex (s : State) (bytes : List Byte) (sink : Sink) :
    (s.put bytes sink).inHex = s.inHex.put (toHex bytes) sink := by
  simp [State.inHex, State.put, toHex_append]

/-- The raw run and the hex run have come equally far in the pseudocode of a command, neither of them stuck. -/
inductive HexEffect : Effect → Effect → Prop where
  | goesOn {t : State} (ht : t.Raw) : HexEffect (.goesOn t) (.goesOn t.inHex)
  | ends {t : State} (ht : t.Raw) : HexEffect (.ends t) (.ends t.inHex)

theorem HexEffect.outcome {e f : Effect} (h : HexEffect e f) :
    ∃ t, t.Raw ∧ e.outcome = .next t ∧ f.outcome = .next t.inHex := by
  cases h with
  | goesOn ht => exact ⟨_, ht, rfl, rfl⟩
  | ends ht => exact ⟨_, ht, rfl, rfl⟩

theorem HexEffect.andThen {e f : Effect} (h : HexEffect e f) {rest : State → Effect}
    (hrest : ∀ t : State, t.Raw → HexEffect (rest t) (rest t.inHex)) :
    HexEffect (e.andThen rest) (f.andThen rest) := by
  cases h with
  | goesOn ht => exact hrest _ ht
  | ends ht => exact .ends ht

section
variable {s : State} (h : s.Raw)
include h

theorem hexEffect_raiseError (kind : ErrKind) (payload : Byte) :
    HexEffect (raiseError kind payload s) (raiseError kind payload s.inHex) :=
  .ends (t := s.latch kind payload) ⟨h.hexEn, h.sink⟩

/-- Both runs flush the same chunk; the bytes it decodes to go out as they are in the one and as hex in the other
(R141, R142). -/
theorem hexEffect_flush : HexEffect (flush s) (flush s.inHex) := by
  cases hd : decodeChunk s.chunk with
  | err kind payload =>
    have hd' : decodeChunk s.inHex.chunk = .err kind payload := by rw [inHex_chunk, hd]
    rw [flush_of_err hd, flush_of_err hd']
    exact .ends (t := s.emptyChunk.latch kind payload) ⟨h.hexEn, h.sink⟩
  | ok bytes =>
    have hhex : s.inHex.emptyChunk.put (toHex bytes) .always = (s.emptyChunk.put bytes .always).inHex :=
      (put_inHex s.emptyChunk bytes .always).symm
    have hd' : decodeChunk s.inHex.chunk = .ok bytes := by rw [inHex_chunk, hd]
    rw [flush_of_ok hd h.sink, flush_of_ok hd' h.sink, h.hexEn, formatOut_false, inHex_hexEn, formatOut_true, hhex]
    exact .goesOn ⟨h.hexEn, rfl⟩

theorem hexEffect_flushIfFull : HexEffect (flushIfFull s) (flushIfFull s.inHex) := by
  unfold flushIfFull
  rw [inHex_chunkLen]
  split_ifs
  · exact hexEffect_flush h
  · exact .goesOn h

theorem hexEffect_flushIfAny : HexEffect (flushIfAny s) (flushIfAny s.inHex) := by
  unfold flushIfAny
  rw [inHex_chunkLen]
  split_ifs
  · exact hexEffect_flush h
  · exact .goesOn h

theorem hexEffect_charEffect (c : Byte) : HexEffect (charEffect c s) (charEffect c s.inHex) := by
  unfold charEffect
  rw [inHex_runState]
  split_ifs
  · exact hexEffect_raiseError h _ _
  · exact .goesOn h
  · exact hexEffect_flushIfFull (s := s.append c) ⟨h.hexEn, h.sink⟩

theorem hexEffect_eosEffect : HexEffect (eosEffect s) (eosEffect s.inHex) := by
  unfold eosEffect
  rw [inHex_runState]
  split_ifs
  · exact hexEffect_raiseError h _ _
  · exact (hexEffect_flushIfAny h).andThen fun t ht => .goesOn (t := t.markDone) ⟨ht.hexEn, ht.sink⟩

/-! ### Commands and runs -/

theorem unlessHalted_inHex {command : State → Effect} (hcommand : HexEffect (command s) (command s.inHex)) :
    ∃ t, t.Raw ∧ unlessHalted command s = .next t ∧ unlessHalted command s.inHex = .next t.inHex := by
  unfold unlessHalted
  rw [inHex_runState]
  split_ifs
  · exact ⟨s, h, rfl, rfl⟩
  · exact hcommand.outcome

theorem exec_inHex (i : Instr) : ∃ t, t.Raw ∧ exec i s = .next t ∧ exec i s.inHex = .next t.inHex := by
  cases i with
  | char c => exact unlessHalted_inHex h (hexEffect_charEffect h c)
  | eos => exact unlessHalted_inHex h (hexEffect_eosEffect h)
  | sinkfail code => exact unlessHalted_inHex h (hexEffect_raiseError h _ _)
  | exterr code => exact unlessHalted_inHex h (hexEffect_raiseError h _ _)
  | reserved47 op => exact unlessHalted_inHex h (hexEffect_raiseError h _ _)
  | reserved8F op => exact unlessHalted_inHex h (hexEffect_raiseError h _ _)

theorem runWords_inHex (ws : List Word) :
    ∃ t, runWords ws s = .next t ∧ runWords ws s.inHex = .next t.inHex := by
  induction ws generalizing s with
  | nil => exact ⟨s, rfl, rfl⟩
  | cons w ws ih =>
    obtain ⟨u, hu, hraw, hhex⟩ := exec_inHex h (decode w)
    rw [runWords, runWords, hraw, hhex]
    exact ih hu

end

/-- Settles O47, by a simulation: the hex run stays at `State.inHex` of the raw run, command by command. -/
theorem hexRunIsHexOfRawRun : Obligations.HexRunIsHexOfRawRun := by
  unfold Obligations.HexRunIsHexOfRawRun
  exact fun ws s hexEn sink => runWords_inHex ⟨hexEn, sink⟩ ws

end Sys2Proof.Machine
end

section
/-! PROOFS. SINKFAIL, EXTERR and the reserved opcodes (R150 to R152): outside HALTED each of them is one raise. -/

namespace Sys2Proof.Machine

open Sys2Proof

/-! ## The words -/

theorem decode_sinkfail (rsvd : BitVec 4) (code : Byte) : decode (cmdWord 0x2#4 rsvd code) = .sinkfail code :=
  decode_cmdWord 0x2#4 rsvd code

theorem decode_exterr (rsvd : BitVec 4) (code : Byte) : decode (cmdWord 0x3#4 rsvd code) = .exterr code :=
  decode_cmdWord 0x3#4 rsvd code

theorem decode_reserved47 {op : BitVec 4} (h4 : 4 ≤ op.toNat) (h7 : op.toNat ≤ 7) (rsvd : BitVec 4) (data : Byte) :
    decode (cmdWord op rsvd data) = .reserved47 op := by
  rw [decode_cmdWord, decodeFields_eq, if_neg (by omega), if_neg (by omega), if_neg (by omega), if_neg (by omega),
    if_pos (by omega)]

theorem decode_reserved8F {op : BitVec 4} (h8 : 8 ≤ op.toNat) (rsvd : BitVec 4) (data : Byte) :
    decode (cmdWord op rsvd data) = .reserved8F op := by
  rw [decode_cmdWord, decodeFields_eq, if_neg (by omega), if_neg (by omega), if_neg (by omega), if_neg (by omega),
    if_neg (by omega)]

/-! ## The raise -/

/-- OP has no bit in common with 0xF0, so the OR of R26 is a sum. -/
theorem protocolPayload_eq_add : ∀ op : BitVec 4, protocolPayload op = BitVec.ofNat 8 (0xF0 + op.toNat) := by decide

/-- STATUS after a raise: the error, and HEX_EN and CHUNK_LEN as they were (R36, R161). -/
theorem latch_status_toNat (s : State) (kind : ErrKind) (payload : Byte) :
    (s.latch kind payload).status.toNat =
      2 + 4 * kind.code.toNat + 32 * (if s.hexEn then 1 else 0) + 256 * s.chunkLen.toNat + 65536 * payload.toNat :=
  status_toNat (s.latch kind payload)

section
variable {s : State} (hlive : s.runState ≠ .halted)
include hlive

/-- A command that is nothing but a raise (R161). -/
theorem unlessHalted_raiseError (kind : ErrKind) (payload : Byte) :
    unlessHalted (raiseError kind payload) s = .next (s.latch kind payload) := by
  rw [unlessHalted_of_live _ hlive, raiseError, ends_outcome]

theorem exec_sinkfail_of_live (code : Byte) : exec (.sinkfail code) s = .next (s.latch .writeFailed code) :=
  unlessHalted_raiseError hlive .writeFailed code

theorem exec_exterr_of_live (code : Byte) : exec (.exterr code) s = .next (s.latch .other code) :=
  unlessHalted_raiseError hlive .other code

theorem exec_reserved47_of_live (op : BitVec 4) :
    exec (.reserved47 op) s = .next (s.latch .other (BitVec.ofNat 8 (0xF0 + op.toNat))) := by
  rw [exec, execReserved47, unlessHalted_raiseError hlive, protocolPayload_eq_add]

theorem exec_reserved8F_of_live (op : BitVec 4) :
    exec (.reserved8F op) s = .next (s.latch .other (BitVec.ofNat 8 (0xF0 + op.toNat))) := by
  rw [exec, execReserved8F, unlessHalted_raiseError hlive, protocolPayload_eq_add]

end

/-! ## The statements -/

/-- Settles O21: the raise of SINKFAIL, and STATUS after it as a number. -/
theorem sinkfailLatchesWriteFailed : Obligations.SinkfailLatchesWriteFailed := by
  unfold Obligations.SinkfailLatchesWriteFailed
  refine ⟨fun s code => ⟨fun rsvd => decode_sinkfail rsvd code, fun hlive => exec_sinkfail_of_live hlive code,
    exec_of_halted _⟩, fun s hr hhex hl => ⟨_, exec_sinkfail_of_live (by simp [hr]) 0x05#8, ?_⟩⟩
  apply BitVec.eq_of_toNat_eq
  rw [latch_status_toNat, hhex, hl]
  rfl

/-- Settles O22: the raise of EXTERR, and STATUS after it as a number. -/
theorem exterrLatchesOther : Obligations.ExterrLatchesOther := by
  unfold Obligations.ExterrLatchesOther
  refine ⟨fun s code => ⟨fun rsvd => decode_exterr rsvd code, fun hlive => exec_exterr_of_live hlive code,
    exec_of_halted _⟩, fun s hr hhex hl => ⟨_, exec_exterr_of_live (by simp [hr]) 0x7F#8, ?_⟩⟩
  apply BitVec.eq_of_toNat_eq
  rw [latch_status_toNat, hhex, hl]
  rfl

/-- Settles O23: the raise of a reserved command, in either row, and STATUS after it as a number. -/
theorem reservedOpcodesLatchOther : Obligations.ReservedOpcodesLatchOther := by
  unfold Obligations.ReservedOpcodesLatchOther
  refine ⟨fun s op => ⟨fun h4 h7 => ?_, fun h8 => ?_⟩, fun s hr hhex hl => ?_⟩
  · exact ⟨decode_reserved47 h4 h7, fun hlive => exec_reserved47_of_live hlive op, exec_of_halted _⟩
  · exact ⟨decode_reserved8F h8, fun hlive => exec_reserved8F_of_live hlive op, exec_of_halted _⟩
  · have hdecode : decode 0x4000#16 = .reserved47 0x4#4 :=
      decode_reserved47 (op := 0x4#4) (by decide) (by decide) 0x0#4 0x00#8
    rw [hdecode]
    refine ⟨_, exec_reserved47_of_live (by simp [hr]) 0x4#4, ?_⟩
    apply BitVec.eq_of_toNat_eq
    rw [latch_status_toNat, hhex, hl]
    rfl

end Sys2Proof.Machine
end

section
/-! PROOFS. HALTED is terminal until reset (60_exceptions R162). -/

namespace Sys2Proof.Machine

open Sys2Proof

/-- Settles O24: by induction on the list of words, each of which leaves a halted state as it is. -/
theorem haltedIgnoresEveryCommand : Obligations.HaltedIgnoresEveryCommand := by
  unfold Obligations.HaltedIgnoresEveryCommand
  exact fun _ ws hhalted => runWords_of_halted ws hhalted

end Sys2Proof.Machine
end

section
/-! PROOFS. The encoder is the decoder's inverse (R70 to R73), and the assembler's words (R78, R79). -/

namespace Sys2Proof.Machine

open Sys2Proof

/-! ## Decoding and encoding -/

/-- The decoder inverts the encoder. -/
theorem decode_encode {i : Instr} (hi : i.WellFormed) : decode (encode i) = i := by
  cases i with
  | char c => exact decode_encode_char c
  | eos => exact decode_encode_eos
  | sinkfail code => exact decode_sinkfail 0x0#4 code
  | exterr code => exact decode_exterr 0x0#4 code
  | reserved47 op =>
    obtain ⟨h4, h7⟩ := of_decide_eq_true hi
    exact decode_reserved47 h4 h7 0x0#4 0x00#8
  | reserved8F op => exact decode_reserved8F (of_decide_eq_true hi) 0x0#4 0x00#8

/-- The encoder gives a word back with the bits no rule reads cleared: RSVD always, DATA where the command has none. -/
theorem encode_decode_toNat (w : Word) :
    (encode (decode w)).toNat =
      4096 * (w.toNat / 4096) +
        (if w.toNat / 4096 = 0 ∨ w.toNat / 4096 = 2 ∨ w.toNat / 4096 = 3 then w.toNat % 256 else 0) := by
  rw [decode_eq]
  split_ifs <;> simp only [encode, cmdWord_toNat, BitVec.toNat_ofNat] <;> omega

/-- Settles O1, by the rows of the opcode map in both directions. -/
theorem decodeEncodeAgree : Obligations.DecodeEncodeAgree := by
  unfold Obligations.DecodeEncodeAgree
  exact ⟨fun _ => decode_encode, fun w => ⟨decode_wellFormed w, encode_decode_toNat w⟩⟩

/-- Settles O4, by the command of the OP and the DATA of each word. -/
theorem exampleWordsDecode : Obligations.ExampleWordsDecode := by
  unfold Obligations.ExampleWordsDecode
  exact ⟨decode_cmdWord 0x0#4 0x0#4 0x4E#8, decode_cmdWord 0x0#4 0x0#4 0x20#8, decode_cmdWord 0x0#4 0x0#4 0x0A#8,
    decode_cmdWord 0x0#4 0x0#4 0x3D#8, decode_cmdWord 0x1#4 0x0#4 0x00#8, decode_sinkfail 0x0#4 0x05#8,
    decode_exterr 0x0#4 0x7F#8, decode_cmdWord 0x0#4 0xF#4 0x4E#8,
    decode_reserved47 (op := 0x4#4) (by decide) (by decide) 0x0#4 0x00#8⟩

/-! ## The assembler -/

theorem encode_char_toNat (c : Byte) : (encode (.char c)).toNat = c.toNat := by
  simp [encode, cmdWord_toNat]

/-- Settles O5: the words of STR are those of the bytes, and those of STREAM have one EOS more. -/
theorem pseudoInstructionExpansions : Obligations.PseudoInstructionExpansions := by
  unfold Obligations.PseudoInstructionExpansions
  intro bytes
  refine ⟨List.length_map _, fun k hk => ?_, rfl, fun w hw => ?_⟩
  · simp [AsmItem.words, hk, encode_char_toNat]
  · obtain hstr | heos := List.mem_append.mp hw
    · obtain ⟨c, -, rfl⟩ := List.mem_map.mp hstr
      have hc := c.isLt
      rw [encode_char_toNat]
      omega
    · obtain rfl := List.mem_singleton.mp heos
      decide

/-- A byte between quote marks is read as itself, unless it is a quote mark or starts an escape (R78). -/
theorem readCharLiteral_of_plain {c : Byte} (hquote : c ≠ 0x27#8) (hbackslash : c ≠ 0x5C#8) :
    readCharLiteral [c, 0x27#8] = .ok c := by
  have hend : atEnd [] = true := rfl
  simp [readCharLiteral, hbackslash, hquote, hend]

/-- The line `CHAR 'c'` is cut into its mnemonic and its operand, whatever `c` is. -/
theorem assembleLine_char_literal (c : Byte) :
    assembleLine (ascii "CHAR '" ++ [c] ++ ascii "'") =
      ((readCharLiteral [c, 0x27#8]).map AsmItem.char).map AsmItem.words := rfl

/-- Settles O6, by the operand the line is cut into. -/
theorem charLiteralAssembles : Obligations.CharLiteralAssembles := by
  unfold Obligations.CharLiteralAssembles
  intro c hquote hbackslash
  rw [assembleLine_char_literal, readCharLiteral_of_plain hquote hbackslash]
  rfl

end Sys2Proof.Machine
end

section
/-! PROOFS. The reference encoder of law 3 of R129 (log 17): its symbols are the stream of its bytes, cut by fives. -/

namespace Sys2Proof.Machine

open Sys2Proof

/-! ## The symbols of a group -/

/-- The symbols the reference encoder writes for a group of bytes. -/
def groupSymbols (bytes : List Byte) : List Symbol :=
  (List.range (charsOfBytes bytes.length)).map (groupSymbol bytes)

@[simp] theorem length_groupSymbols (bytes : List Byte) :
    (groupSymbols bytes).length = charsOfBytes bytes.length := by
  simp [groupSymbols]

theorem encodeGroup_eq_map (bytes : List Byte) : encodeGroup bytes = (groupSymbols bytes).map alphAt := by
  rw [encodeGroup, groupSymbols, List.map_map]
  rfl

/-- Five bits written one after the other, counted from the most significant end. -/
theorem getMsbD_of_five_bits (a b c d e : Bool) {j : Nat} (hj : j < 5) :
    (BitVec.ofBool a ++ BitVec.ofBool b ++ BitVec.ofBool c ++ BitVec.ofBool d ++ BitVec.ofBool e).getMsbD j =
      [a, b, c, d, e].getD j false := by
  revert a b c d e
  interval_cases j <;> decide

/-- Bit `j` of symbol `i` is bit `5i + j` of the stream of the bytes. -/
theorem groupSymbol_getMsbD (bytes : List Byte) (i : Nat) {j : Nat} (hj : j < 5) :
    (groupSymbol bytes i).getMsbD j = bitAt bytes (5 * i + j) := by
  rw [groupSymbol, getMsbD_of_five_bits _ _ _ _ _ hj]
  interval_cases j <;> rfl

/-- The symbols have the stream of the bytes, with zeros after its end. -/
theorem bitAt_groupSymbols {bytes : List Byte} {p : Nat} (hp : p < 5 * charsOfBytes bytes.length) :
    bitAt (groupSymbols bytes) p = bitAt bytes p := by
  have hi : p / 5 < charsOfBytes bytes.length := by omega
  have hsymbol : (groupSymbols bytes).getD (p / 5) 0#5 = groupSymbol bytes (p / 5) := by
    simp [groupSymbols, hi]
  rw [bitAt, hsymbol, groupSymbol_getMsbD bytes _ (Nat.mod_lt p (by decide)), Nat.div_add_mod]

/-- After its last word a stream has zeros. -/
theorem bitAt_of_length_le {w : Nat} {xs : List (BitVec w)} {p : Nat} (hw : 0 < w) (hp : w * xs.length ≤ p) :
    bitAt xs p = false := by
  have hk : xs.length ≤ p / w := (Nat.le_div_iff_mul_le hw).mpr (by rwa [Nat.mul_comm])
  simp [bitAt, hk]

/-- The characters of a group are of a length that decodes to as many bytes (R121). -/
theorem nbytes_charsOfBytes {n : Nat} (h : n ≤ 5) : nbytes (charsOfBytes n) = some n := by
  interval_cases n <;> rfl

theorem charsOfBytes_of_nbytes {len n : Nat} (h : nbytes len = some n) : charsOfBytes n = len := by
  obtain ⟨rfl, rfl⟩ | ⟨rfl, rfl⟩ | ⟨rfl, rfl⟩ | ⟨rfl, rfl⟩ | ⟨rfl, rfl⟩ | ⟨rfl, rfl⟩ := nbytes_eq_some h <;> rfl

/-- The text of some symbols has those symbols. -/
theorem lookupAll_map_alphAt (vs : List Symbol) : lookupAll (vs.map alphAt) = .ok vs := by
  induction vs with
  | nil => rfl
  | cons v vs ih => rw [List.map_cons, lookupAll_cons_of_some _ (decLut_alphAt v), ih]; rfl

theorem alphAt_symbolOr0 {c : Byte} (h : validChar c = true) : alphAt (symbolOr0 c) = c := by
  obtain ⟨v, hv⟩ : ∃ v, decLut c = some v := Option.isSome_iff_exists.mp h
  rw [symbolOr0, hv]
  exact decLut_injective (decLut_alphAt v) hv

/-- The symbols of a chunk, character by character. -/
theorem eq_map_symbolOr0_of_lookupAll {ch : List Byte} {vs : List Symbol} (h : lookupAll ch = .ok vs) :
    vs = ch.map symbolOr0 := by
  obtain ⟨-, -, hmap⟩ := lookupAll_ok h
  show vs = ch.map fun c => (decLut c).getD 0#5
  simpa [Function.comp_def] using (congrArg (List.map (·.getD 0#5)) hmap).symm

/-- A chunk is the text of its symbols. -/
theorem map_alphAt_of_lookupAll {ch : List Byte} {vs : List Symbol} (h : lookupAll ch = .ok vs) :
    vs.map alphAt = ch := by
  obtain ⟨-, hvalid, -⟩ := lookupAll_ok h
  rw [eq_map_symbolOr0_of_lookupAll h, List.map_map]
  exact (List.map_congr_left fun c hc => alphAt_symbolOr0 (hvalid c hc)).trans (List.map_id ch)

/-! ## The round trips -/

/-- The text of a group of up to five bytes decodes to the group. -/
theorem decodeChunk_encodeGroup {bytes : List Byte} (hlen : bytes.length ≤ 5) :
    decodeChunk (encodeGroup bytes) = .ok bytes := by
  have hn := nbytes_charsOfBytes hlen
  have hbytes : repack (groupSymbols bytes) bytes.length = bytes := by
    refine eq_of_bitAt_eq (length_repack _ _) fun p hp => ?_
    rw [length_repack] at hp
    have hroom := nbytes_eq_some hn
    rw [bitAt_repack (by simpa using hn) hp, bitAt_groupSymbols (by omega)]
  rw [encodeGroup_eq_map, decodeChunk_of_symbols (by simpa using hn) (lookupAll_map_alphAt _), hbytes]

/-- In a canonical chunk the stream of the symbols is zero where the bytes end (R14, R126). -/
theorem bitAt_of_canonical {ch : List Byte} {vs : List Symbol} {n p : Nat} (hl : lookupAll ch = .ok vs)
    (hn : nbytes vs.length = some n)
    (hzero : ∀ j < discarded vs.length n, (symbolOr0 (ch.getLastD 0x00#8)).getLsbD j = false)
    (hp : 8 * n ≤ p) (hp' : p < 5 * vs.length) : bitAt vs p = false := by
  have hlens := nbytes_eq_some hn
  obtain ⟨hlen, -, -⟩ := lookupAll_ok hl
  have hplace : p / 5 = ch.length - 1 := by omega
  have hne : ch.length - 1 < ch.length := by omega
  have hlast : vs.getD (p / 5) 0#5 = symbolOr0 (ch.getLastD 0x00#8) := by
    rw [eq_map_symbolOr0_of_lookupAll hl, hplace]
    simp [List.getLast?_eq_getElem?, hne]
  have hdisc : 5 - 1 - p % 5 < discarded vs.length n := by
    rw [discarded]
    omega
  rw [bitAt, hlast, BitVec.getMsbD, hzero _ hdisc, Bool.and_false]

/-- The reference encoder writes a canonical chunk for the bytes it decodes to. -/
theorem groupSymbols_repack_of_canonical {ch : List Byte} {vs : List Symbol} {n : Nat} (hl : lookupAll ch = .ok vs)
    (hn : nbytes vs.length = some n)
    (hzero : ∀ j < discarded vs.length n, (symbolOr0 (ch.getLastD 0x00#8)).getLsbD j = false) :
    groupSymbols (repack vs n) = vs := by
  have hlen : charsOfBytes (repack vs n).length = vs.length := by rw [length_repack, charsOfBytes_of_nbytes hn]
  refine eq_of_bitAt_eq (by rw [length_groupSymbols, hlen]) fun p hp => ?_
  rw [length_groupSymbols] at hp
  rw [bitAt_groupSymbols hp]
  rw [hlen] at hp
  by_cases hin : p < 8 * n
  · exact bitAt_repack hn hin
  · rw [bitAt_of_length_le (by decide) (by rw [length_repack]; omega),
      bitAt_of_canonical hl hn hzero (by omega) hp]

/-- Settles O14: decoder and encoder both keep the stream of bits, and what the one discards the other writes as
zeros. -/
theorem canonicalRoundTrip : Obligations.CanonicalRoundTrip := by
  unfold Obligations.CanonicalRoundTrip
  refine ⟨?_, fun bytes => decodeChunk_encodeGroup⟩
  rintro ch bytes ⟨n, hn, hvalid, hzero⟩ hd
  obtain ⟨vs, hl⟩ := exists_lookupAll_of_valid hvalid
  obtain ⟨hlen, -, -⟩ := lookupAll_ok hl
  rw [decodeChunk_of_symbols hn hl, DecodeResult.ok.injEq] at hd
  rw [← hlen] at hn hzero
  rw [← hd, encodeGroup_eq_map, groupSymbols_repack_of_canonical hl hn hzero, map_alphAt_of_lookupAll hl]

end Sys2Proof.Machine
end

section
/-! PROOFS. What a command may write, when it completes and when it is stuck (R75, R127, R161, R187). -/

namespace Sys2Proof.Machine

open Sys2Proof

/-! ## The frame of a command -/

/-- Settles O34, by the six changes a command can make. -/
theorem commandsKeepConfiguration : Obligations.CommandsKeepConfiguration := by
  unfold Obligations.CommandsKeepConfiguration
  intro i s t h
  obtain rfl | ⟨-, kind, payload, -, rfl⟩ | ⟨-, c, -, -, -, rfl⟩ | ⟨-, -, -, rfl⟩ |
    ⟨r, kind, payload, -, -, rfl, hr⟩ | ⟨r, bytes, -, -, hout⟩ := exec_next_cases h
  · rfl
  · rfl
  · rfl
  · rfl
  · obtain ⟨-, -, rfl⟩ | ⟨c, -, -, -, rfl⟩ := hr
    · rfl
    · rfl
  · obtain ⟨-, -, rfl, rfl⟩ | ⟨c, -, -, -, rfl, rfl⟩ := hout
    · rfl
    · rfl

section
variable {i : Instr} {s t : State} (h : exec i s = .next t)
include h

theorem exec_hexEn : t.hexEn = s.hexEn := by rw [commandsKeepConfiguration i s t h]

theorem exec_rst : t.rst = s.rst := by rw [commandsKeepConfiguration i s t h]

theorem exec_input : t.input = s.input := by rw [commandsKeepConfiguration i s t h]

/-- A command appends to OUT_LOG and removes nothing (R41). -/
theorem exec_outLog_prefix : s.outLog <+: t.outLog := by
  obtain ⟨hout, -⟩ | ⟨ch, bytes, -, -, -, hout, -⟩ := outputIsThatOfAFlush i s t h
  · rw [hout]
  · exact ⟨_, hout.symm⟩

end

/-- Settles O37: the error registers by `exec_keeps_or_raises`, RUN_STATE by the six changes a command can make. -/
theorem flagsWrittenOnlyAsListed : Obligations.FlagsWrittenOnlyAsListed := by
  unfold Obligations.FlagsWrittenOnlyAsListed
  intro i s t h
  refine ⟨fun hchange => ?_, fun hchange => ?_⟩
  · obtain hk | hr := exec_keeps_or_raises h
    · simp [hk.errKind, hk.errPayload] at hchange
    · exact ⟨hr.live, hr.halted⟩
  · obtain rfl | ⟨-, kind, payload, -, rfl⟩ | ⟨-, c, -, -, -, rfl⟩ | ⟨hr, hi, -, rfl⟩ |
      ⟨r, kind, payload, -, -, rfl, -⟩ | ⟨r, bytes, hr, -, hout⟩ := exec_next_cases h
    · exact absurd rfl hchange
    · exact .inl rfl
    · exact absurd rfl hchange
    · exact .inr ⟨rfl, hr, hi⟩
    · exact .inl rfl
    · obtain ⟨hi, -, rfl, rfl⟩ | ⟨c, -, -, -, rfl, rfl⟩ := hout
      · exact .inr ⟨rfl, hr, hi⟩
      · exact absurd rfl hchange

/-! ## BUF -/

/-- The character that fills the chunk is the eighth. -/
theorem chunkLen_of_append_full {s : State} {c : Byte} (h : (s.append c).chunkLen = 8#4) : s.chunkLen = 7#4 := by
  rw [append_chunkLen] at h
  bv_omega

/-- An append writes the slot at CHUNK_LEN and no other (R101). -/
theorem append_buf_getElem (s : State) (c : Byte) {k : Nat} (hk : k < 8) :
    (s.append c).buf[k] = if k = s.chunkLen.toNat then c else s.buf[k] := by
  simp [Vector.getElem_setIfInBounds, eq_comm]

/-- A flush that does not get stuck leaves BUF as it is (R120). -/
theorem flush_buf {s t : State} (h : (flush s).outcome = .next t) : t.buf = s.buf := by
  obtain ⟨kind, payload, -, hf⟩ | ⟨bytes, -, hf | ⟨room, -, -, hf⟩⟩ := flush_cases s <;> rw [hf] at h <;> cases h
  · rfl
  · rfl

theorem flushIfFull_buf {s t : State} (h : (flushIfFull s).outcome = .next t) : t.buf = s.buf := by
  unfold flushIfFull at h
  split_ifs at h
  · exact flush_buf h
  · cases h
    rfl

/-- A command that is no CHAR leaves BUF as it is. -/
theorem exec_buf_of_ne_char {i : Instr} {s t : State} (h : exec i s = .next t) (hi : ∀ c, i ≠ .char c) :
    t.buf = s.buf := by
  obtain rfl | ⟨-, kind, payload, -, rfl⟩ | ⟨-, c, hc, -⟩ | ⟨-, -, -, rfl⟩ |
    ⟨r, kind, payload, -, -, rfl, ⟨-, -, rfl⟩ | ⟨c, hc, -⟩⟩ |
    ⟨r, bytes, -, -, ⟨-, -, rfl, rfl⟩ | ⟨c, hc, -⟩⟩ := exec_next_cases h
  · rfl
  · rfl
  · exact absurd hc (hi c)
  · rfl
  · rfl
  · exact absurd hc (hi c)
  · rfl
  · exact absurd hc (hi c)

/-- A CHAR that appends nothing leaves BUF as it is (R103, R104, R162). -/
theorem exec_char_buf_of_not_appended {s t : State} {c : Byte} (h : exec (.char c) s = .next t)
    (hc : s.runState ≠ .running ∨ isWhitespace c = true) : t.buf = s.buf := by
  cases hr : s.runState with
  | running =>
    rw [exec_char_whitespace (by simp [hr]) (hc.resolve_left (not_not_intro hr))] at h
    cases h
    rfl
  | done => rw [exec_char_of_done c hr] at h; cases h; rfl
  | halted => rw [exec_of_halted _ hr] at h; cases h; rfl

/-- Settles O48: a flush leaves what the append wrote. -/
theorem onlyCharWritesBuf : Obligations.OnlyCharWritesBuf := by
  unfold Obligations.OnlyCharWritesBuf
  intro i s t h
  refine ⟨exec_buf_of_ne_char h, ?_⟩
  rintro c rfl
  refine ⟨exec_char_buf_of_not_appended h, fun hr hc k hk => ?_⟩
  rw [exec_char_of_running c hr, hc, if_neg (by simp)] at h
  simpa only [flushIfFull_buf h] using append_buf_getElem s c hk

/-! ## A command that fails -/

/-- Settles O35: only a raise halts, and before it a command has at most appended its character and emptied the
chunk. -/
theorem failingCommandPutsNothingOut : Obligations.FailingCommandPutsNothingOut := by
  unfold Obligations.FailingCommandPutsNothingOut
  intro i s t h hlive hhalted
  obtain rfl | ⟨-, kind, payload, hkind, rfl⟩ | ⟨-, c, -, -, -, rfl⟩ | ⟨-, -, -, rfl⟩ |
    ⟨r, kind, payload, -, hd, rfl, hr⟩ | ⟨r, bytes, hrun, -, hout⟩ := exec_next_cases h
  · exact absurd hhalted hlive
  · exact ⟨rfl, by rcases hkind with rfl | rfl <;> simp, .inl rfl⟩
  · exact absurd hhalted hlive
  · cases hhalted
  · have hkinds : kind = .invalidData ∨ kind = .invalidSize := by
      obtain ⟨hk, -⟩ | ⟨hk, -⟩ := decodeChunk_err hd
      · exact .inr hk
      · exact .inl hk
    obtain ⟨hi, -, rfl⟩ | ⟨c, hi, -, hfull, rfl⟩ := hr
    · exact ⟨rfl, decodeChunk_err_ne_none hd, .inr ⟨hkinds, rfl, .inl ⟨hi, rfl⟩⟩⟩
    · have hl : s.chunkLen = 7#4 := chunkLen_of_append_full hfull
      refine ⟨rfl, decodeChunk_err_ne_none hd, .inr ⟨hkinds, rfl, .inr ⟨c, hi, hl, ?_, fun k hk => ?_⟩⟩⟩
      · simp [hl]
      · have hne : k ≠ s.chunkLen.toNat := by simp [hl]; omega
        exact (append_buf_getElem s c (by omega)).trans (if_neg hne)
  · obtain ⟨-, -, rfl, rfl⟩ | ⟨c, -, -, -, rfl, rfl⟩ := hout
    · cases hhalted
    · exact absurd hhalted hlive

/-! ## A sink that stops -/

/-- Settles O26: a command gets stuck in its flush or not at all. -/
theorem stepFunctionIsTotal : Obligations.StepFunctionIsTotal := by
  unfold Obligations.StepFunctionIsTotal
  intro i s
  by_cases hh : s.runState = .halted
  · exact .inl ⟨s, exec_of_halted i hh⟩
  have hc := exec_cases i s hh
  generalize exec i s = o at hc ⊢
  cases hc with
  | raised kind payload hk => exact .inl ⟨_, rfl⟩
  | dropped c hi hr hw => exact .inl ⟨_, rfl⟩
  | appended c hi hr hw hl => exact .inl ⟨_, rfl⟩
  | ended hi hr hl => exact .inl ⟨_, rfl⟩
  | filled c hi hr hw hl =>
    obtain ⟨kind, payload, -, hf⟩ | ⟨bytes, hd, hf | ⟨room, hs, hlt, hf⟩⟩ := flush_cases (s.append c)
    · exact .inl ⟨_, by rw [hf, ends_outcome]⟩
    · exact .inl ⟨_, by rw [hf, goesOn_outcome]⟩
    · exact .inr ⟨room, _, bytes, hr, hs, hd, hlt, by rw [hf, stuck_outcome]; rfl, .inr ⟨c, hi, rfl, hl⟩⟩
  | endedWithFlush hi hr hl =>
    obtain ⟨kind, payload, -, hf⟩ | ⟨bytes, hd, hf | ⟨room, hs, hlt, hf⟩⟩ := flush_cases s
    · exact .inl ⟨_, by rw [hf, ends_andThen, ends_outcome]⟩
    · exact .inl ⟨_, by rw [hf, goesOn_andThen, goesOn_outcome]⟩
    · exact .inr ⟨room, _, bytes, hr, hs, hd, hlt, by rw [hf, stuck_andThen, stuck_outcome], .inl ⟨hi, rfl⟩⟩

/-- Before a sink that takes every byte every command completes. -/
theorem exec_completes_of_always (i : Instr) {s : State} (h : s.sink = .always) : ∃ t, exec i s = .next t := by
  obtain hnext | ⟨room, -, -, -, hs, -⟩ := stepFunctionIsTotal i s
  · exact hnext
  · rw [h] at hs
    cases hs

section
variable {s : State} {room : Nat} {bytes : List Byte} (hs : s.sink = .stallsAfter room)
  (hd : decodeChunk s.chunk = .ok bytes)
include hs hd

/-- A flush whose output the sink has room for (R187). -/
theorem flush_of_room (hle : (formatOut s.hexEn bytes).length ≤ room) :
    flush s = .goesOn (s.emptyChunk.put (formatOut s.hexEn bytes)
      (.stallsAfter (room - (formatOut s.hexEn bytes).length))) := by
  simp [flush, hd, emitAll, hs, hle]

/-- A flush whose output the sink has no room for (R187). -/
theorem flush_of_no_room (hlt : room < (formatOut s.hexEn bytes).length) :
    flush s = .stuck (.sinkStalled ((formatOut s.hexEn bytes).take room)) := by
  have hmin : min room (formatOut s.hexEn bytes).length = room := Nat.min_eq_left hlt.le
  simp [flush, hd, emitAll, hs, hmin, hlt.ne]

end

/-- EOS with a chunk is its flush and then DONE (R106). -/
theorem exec_eos_flush {s : State} (hr : s.runState = .running) (hl : s.chunkLen ≠ 0#4) :
    exec .eos s = ((flush s).andThen fun t => .goesOn t.markDone).outcome := by
  rw [exec_eos_of_running hr, flushIfAny, if_pos hl]

/-- Settles O33: EOS and the CHAR that fills the chunk end as their flush does. -/
theorem stalledSinkNeverCompletes : Obligations.StalledSinkNeverCompletes := by
  unfold Obligations.StalledSinkNeverCompletes
  intro s room bytes hr hs
  refine ⟨fun hl hd => ⟨fun hle => ?_, fun hlt => ?_⟩, fun c hl hc hd => ?_⟩
  · rw [exec_eos_flush hr hl, flush_of_room hs hd hle]
    rfl
  · rw [exec_eos_flush hr hl, flush_of_no_room hs hd hlt]
    rfl
  · rw [← append_chunk_of_seven c hl] at hd
    have hs' : (s.append c).sink = .stallsAfter room := hs
    rw [exec_char_flush hr hc hl]
    refine ⟨fun hle => ⟨_, congrArg Effect.outcome (flush_of_room hs' hd hle), rfl, rfl, hr⟩, fun hlt => ?_⟩
    exact congrArg Effect.outcome (flush_of_no_room hs' hd hlt)

end Sys2Proof.Machine
end

section
/-! PROOFS. A step by the event it takes (R10, R52, R173, R180 to R182): what pins and resets do, the frame of every
step, and the lines (R39, R166). -/

namespace Sys2Proof.Machine

open Sys2Proof

/-! ## The event taken -/

/-- The state with other events waiting at the ports. -/
def State.withInput (s : State) (es : List HostEvent) : State := { s with input := es }

/-- The state with the next event taken from the ports. -/
def State.taken (s : State) : State := s.withInput s.input.tail

/-- What a step that completes has done. -/
inductive StepEffect (s : State) : State → Prop where
  /-- It has run a command. -/
  | command (w : Word) (t : State) (hrst : s.rst = false) (hhead : s.input.head? = some (.command w))
      (hexec : exec (decode w) s.taken = .next t) : StepEffect s t
  /-- It has abandoned a command for a reset. -/
  | cut (w : Word) (n : Nat) : StepEffect s (abandonCommand (sentBeforeReset w n s.taken) s.taken)
  /-- It has ended a reset. -/
  | reset (hrst : s.rst = true) (hhead : s.input.head? = some .releaseReset) : StepEffect s (resetBlock s.taken)
  /-- It has changed nothing but the pins and the list of events. -/
  | pins (rst hexEnPin : Bool) : StepEffect s { s.taken with rst := rst, hexEnPin := hexEnPin }

/-- Everything a step that completes can have done. -/
theorem step_effect {s t : State} (h : step s = .next t) : StepEffect s t := by
  obtain ⟨hi, rfl⟩ | ⟨e, rest, r, hi, rfl, hev⟩ := step_next_cases h
  · have hpins : StepEffect t { t.taken with rst := t.rst, hexEnPin := t.hexEnPin } := .pins t.rst t.hexEnPin
    have htaken : { t.taken with rst := t.rst, hexEnPin := t.hexEnPin } = t := by
      rw [State.taken, hi, List.tail_nil, ← hi]
      rfl
    rwa [htaken] at hpins
  have htaken : { s with input := rest } = s.taken := by rw [State.taken, hi]; rfl
  have hhead : s.input.head? = some e := by rw [hi]; rfl
  rw [htaken] at hev
  obtain ⟨w, rfl, hrst, hexec⟩ | ⟨w, n, -, -, rfl⟩ | ⟨-, -, rfl⟩ | ⟨-, rfl⟩ | ⟨rfl, hrst, rfl⟩ | ⟨-, -, rfl⟩ |
    ⟨level, -, rfl⟩ := hev
  · exact .command w t hrst hhead hexec
  · exact .cut w n
  · exact .pins s.rst s.hexEnPin
  · exact .pins true s.hexEnPin
  · exact .reset hrst hhead
  · exact .pins s.rst s.hexEnPin
  · exact .pins s.rst level

/-! ## Steps that run no command -/

/-- Settles O25: the port hands the word to the decoder, and the command to `exec`. -/
theorem stepRunsThePresentedCommand : Obligations.StepRunsThePresentedCommand := by
  unfold Obligations.StepRunsThePresentedCommand
  refine ⟨fun s w rest hi hrst => ?_, fun s nbits w _ => rfl⟩
  rw [step_of_event hi]
  simp [handleEvent, State.cmdReady, hrst]

/-- Settles O27, by the events that are left. -/
theorem onlyCommandsAndResetChangeTheBlock : Obligations.OnlyCommandsAndResetChangeTheBlock := by
  unfold Obligations.OnlyCommandsAndResetChangeTheBlock
  have hidle : ∀ s : State, s.input = [] → step s = .next s := fun s hi => by simp only [step, hi]
  refine ⟨hidle, fun s hcommand hcut hrelease => ?_⟩
  cases hi : s.input with
  | nil => exact ⟨s, hidle s hi, by rw [List.tail_nil, ← hi]⟩
  | cons e rest =>
    rw [step_of_event hi]
    cases e with
    | command w => simp [hi] at hcommand
    | commandCutByReset w n => simp [hi] at hcut
    | assertReset => exact ⟨_, rfl, rfl⟩
    | releaseReset => simp [hi] at hrelease
    | driveHexEn level => exact ⟨_, rfl, rfl⟩

/-- Settles O28, event by event. -/
theorem pinsAndReadyDuringReset : Obligations.PinsAndReadyDuringReset := by
  unfold Obligations.PinsAndReadyDuringReset
  intro s rest
  refine ⟨fun level hi => ?_, fun hi => ?_, fun hrst => ⟨?_, rfl⟩, fun w hrst hi => ?_, fun w n hrst hi => ?_⟩
  · rw [step_of_event hi]; rfl
  · rw [step_of_event hi]; rfl
  · rw [State.cmdReady, hrst]; rfl
  · rw [step_of_event hi]; simp [handleEvent, State.cmdReady, hrst]
  · rw [step_of_event hi]; simp [handleEvent, State.cmdReady, hrst]

/-- STATUS at the end of a reset shows HEX_EN alone (R42). -/
theorem resetBlock_status (s : State) :
    (resetBlock s).status = if s.hexEnPin then 0x00000020#32 else 0x00000000#32 := by
  simp only [State.status, resetBlock]
  cases s.hexEnPin <;> rfl

/-- Settles O29: the step is `resetBlock` of the state with its event taken. -/
theorem resetPutsEveryElement : Obligations.ResetPutsEveryElement := by
  unfold Obligations.ResetPutsEveryElement
  intro s rest hrst hi
  refine ⟨resetBlock (s.withInput rest), ?_, rfl, rfl, rfl, rfl, rfl, rfl, resetBlock_status _, rfl, rfl, rfl, rfl, rfl⟩
  rw [step_of_event hi]
  simp [handleEvent, hrst, State.withInput]

/-! ## Resets inside a command -/

/-- The output of a command is what it adds to OUT_LOG before a sink that takes every byte. -/
theorem outLog_eq_append_commandOutput {w : Word} {s t : State}
    (h : exec (decode w) { s with sink := .always } = .next t) : t.outLog = s.outLog ++ commandOutput w s := by
  obtain ⟨out, hout⟩ := exec_outLog_prefix h
  simp only at hout
  simp [commandOutput, h, ← hout]

/-- In HALTED a command puts nothing out (R162). -/
theorem commandOutput_of_halted (w : Word) {s : State} (h : s.runState = .halted) : commandOutput w s = [] := by
  have hnext := outLog_eq_append_commandOutput (w := w) (s := s) (exec_of_halted _ h)
  simpa using hnext

theorem sink_after_zero (sink : Sink) : sink.after 0 = sink := by cases sink <;> rfl

/-- A reset inside a command that would put nothing out only raises `rst`. -/
theorem abandonCommand_nil (s : State) : abandonCommand [] s = { s with rst := true } := by
  simp [abandonCommand, sink_after_zero]

/-- The bytes taken before a reset are no more than the sink has room for. -/
theorem length_sentBeforeReset_le {s : State} {room : Nat} (w : Word) (n : Nat) (hs : s.sink = .stallsAfter room) :
    (sentBeforeReset w n s).length ≤ room := by
  simp [sentBeforeReset, hs]

/-- The first bytes of the output, as many of them as the sink has room for, can be what was taken before a reset
(R182). -/
theorem sentBeforeReset_of_prefix {s : State} {w : Word} {sent : List Byte} (h : sent <+: commandOutput w s)
    (hroom : ∀ room, s.sink = .stallsAfter room → sent.length ≤ room) : sentBeforeReset w sent.length s = sent := by
  have htakes : s.sink.takes sent.length = sent.length := by
    cases hs : s.sink with
    | always => rfl
    | stallsAfter room => exact Nat.min_eq_right (hroom room hs)
  rw [sentBeforeReset, htakes]
  exact (List.prefix_iff_eq_take.mp h).symm

theorem step_of_cut {s : State} (w : Word) (n : Nat) (hrst : s.rst = false) :
    step { s with input := .commandCutByReset w n :: s.input } = .next (abandonCommand (sentBeforeReset w n s) s) := by
  have hready : s.cmdReady = true := by rw [State.cmdReady, hrst]; rfl
  exact if_pos hready

/-- Settles O32: the bytes the event finds taken are the prefixes of the command's output that the sink has room
for. -/
theorem midCommandResetAdmitsEveryPrefix : Obligations.MidCommandResetAdmitsEveryPrefix := by
  unfold Obligations.MidCommandResetAdmitsEveryPrefix
  intro s w hrst
  obtain ⟨t, ht⟩ := exec_completes_of_always (decode w) (s := { s with sink := .always }) rfl
  refine ⟨t, ht, fun sent hsent hroom => ⟨sent.length, ?_⟩, fun n => ⟨sentBeforeReset w n s, ?_, ?_, ?_⟩⟩
  · rw [outLog_eq_append_commandOutput ht, List.prefix_append_right_inj] at hsent
    rw [step_of_cut w _ hrst, sentBeforeReset_of_prefix hsent hroom]
    rfl
  · rw [outLog_eq_append_commandOutput ht, List.prefix_append_right_inj]
    exact List.take_prefix _ _
  · exact fun room hs => length_sentBeforeReset_le w n hs
  · rw [step_of_cut w n hrst]
    rfl

/-! ## The frame of every step -/

/-- Settles O38: commands, cut short or not, append to OUT_LOG. -/
theorem outLogOnlyGrows : Obligations.OutLogOnlyGrows := by
  unfold Obligations.OutLogOnlyGrows
  intro s t h hno
  cases step_effect h with
  | command w _ hrst hhead hexec => exact exec_outLog_prefix (s := s.taken) hexec
  | cut w n => exact List.prefix_append _ _
  | reset hrst hhead => exact absurd ⟨hrst, hhead⟩ hno
  | pins rst hexEnPin => exact List.prefix_rfl

/-- A step that ends no reset changes RUN_STATE to HALTED, or from RUNNING to DONE by an EOS. -/
theorem step_runState {s t : State} (h : step s = .next t)
    (hno : ¬ (s.rst = true ∧ s.input.head? = some .releaseReset)) :
    t.runState = s.runState ∨ (s.rst = false ∧ ∃ w, s.input.head? = some (.command w) ∧
      (t.runState = .halted ∨ (t.runState = .done ∧ s.runState = .running ∧ decode w = .eos))) := by
  cases step_effect h with
  | command w _ hrst hhead hexec =>
    by_cases hsame : t.runState = s.runState
    · exact .inl hsame
    · exact .inr ⟨hrst, w, hhead, (flagsWrittenOnlyAsListed _ _ _ hexec).2 hsame⟩
  | cut w n => exact .inl rfl
  | reset hrst hhead => exact absurd ⟨hrst, hhead⟩ hno
  | pins rst hexEnPin => exact .inl rfl

/-- Settles O30: no command writes HEX_EN or brings RUNNING back, and in HALTED none has an effect. -/
theorem onlyResetLeavesHalted : Obligations.OnlyResetLeavesHalted := by
  unfold Obligations.OnlyResetLeavesHalted
  intro s t h hno
  refine ⟨?_, fun hs => ?_, fun hs => ?_⟩
  · cases step_effect h with
    | command w _ hrst hhead hexec => exact exec_hexEn (s := s.taken) hexec
    | cut w n => rfl
    | reset hrst hhead => exact absurd ⟨hrst, hhead⟩ hno
    | pins rst hexEnPin => rfl
  · obtain ht | ⟨-, w, -, ht | ⟨ht, -⟩⟩ := step_runState h hno
    · rwa [ht]
    · simp [ht]
    · simp [ht]
  · have hs' : s.taken.runState = .halted := hs
    cases step_effect h with
    | command w _ hrst hhead hexec =>
      rw [exec_of_halted _ hs'] at hexec
      cases hexec
      rfl
    | cut w n =>
      rw [sentBeforeReset, commandOutput_of_halted w hs', List.take_nil, abandonCommand_nil]
      rfl
    | reset hrst hhead => exact absurd ⟨hrst, hhead⟩ hno
    | pins rst hexEnPin => rfl

/-! ## The lines -/

theorem haltedLine_eq_true_iff (s : State) : s.haltedLine = true ↔ s.runState = .halted := decide_eq_true_iff

theorem haltedLine_eq_false_iff (s : State) : s.haltedLine = false ↔ s.runState ≠ .halted := decide_eq_false_iff_not

theorem doneLine_eq_true_iff (s : State) : s.doneLine = true ↔ s.runState = .done := decide_eq_true_iff

theorem doneLine_eq_false_iff (s : State) : s.doneLine = false ↔ s.runState ≠ .done := decide_eq_false_iff_not

/-- Settles O31, by what a step can change RUN_STATE to. -/
theorem outcomeLinesFollowRunState : Obligations.OutcomeLinesFollowRunState := by
  unfold Obligations.OutcomeLinesFollowRunState
  refine ⟨fun s => ?_, fun s t h hno => ?_⟩
  · rw [State.doneLine, State.haltedLine]
    cases s.runState <;> rfl
  · simp only [haltedLine_eq_true_iff, doneLine_eq_true_iff]
    obtain ht | ⟨-, w, -, ht | ⟨ht, hs, -⟩⟩ := step_runState h hno
    · rw [ht]
      exact ⟨id, .inl⟩
    · exact ⟨fun _ => ht, fun _ => .inr ht⟩
    · simp [hs]

/-- Settles O49: a line that rises follows a change of RUN_STATE, which the end of a reset does not bring. -/
theorem outcomeLinesRiseOnRaiseAndEos : Obligations.OutcomeLinesRiseOnRaiseAndEos := by
  unfold Obligations.OutcomeLinesRiseOnRaiseAndEos
  intro s t h
  simp only [haltedLine_eq_true_iff, haltedLine_eq_false_iff, doneLine_eq_true_iff, doneLine_eq_false_iff]
  cases step_effect h with
  | command w _ hrst hhead hexec =>
    refine ⟨fun hs ht => ⟨?_, hrst, w, hhead⟩, fun hs ht => ?_⟩
    · obtain hk | hr := exec_keeps_or_raises hexec
      · exact absurd (hk.halted_iff.mp ht) hs
      · exact hr.errKind
    · have hchange : t.runState ≠ s.runState := fun hsame => hs (hsame ▸ ht)
      obtain hhalted | ⟨-, hrun, hi⟩ := (flagsWrittenOnlyAsListed _ _ _ hexec).2 hchange
      · rw [hhalted] at ht
        cases ht
      · exact ⟨hrun, hrst, w, hhead, hi⟩
  | cut w n => exact ⟨fun hs ht => absurd ht hs, fun hs ht => absurd ht hs⟩
  | reset hrst hhead =>
    have hrun : (resetBlock s.taken).runState = .running := rfl
    simp [hrun]
  | pins rst hexEnPin => exact ⟨fun hs ht => absurd ht hs, fun hs ht => absurd ht hs⟩

end Sys2Proof.Machine
end

section
/-! PROOFS. Steps through waiting commands are a run of their words (R60): no command reads or writes the events that
wait. -/

namespace Sys2Proof.Machine

open Sys2Proof

@[simp] theorem withInput_chunkLen (s : State) (es : List HostEvent) : (s.withInput es).chunkLen = s.chunkLen := rfl

@[simp] theorem withInput_runState (s : State) (es : List HostEvent) : (s.withInput es).runState = s.runState := rfl

@[simp] theorem withInput_sink (s : State) (es : List HostEvent) : (s.withInput es).sink = s.sink := rfl

@[simp] theorem withInput_chunk (s : State) (es : List HostEvent) : (s.withInput es).chunk = s.chunk := rfl

/-! ## Commands -/

/-- The effect with other events waiting. -/
def Effect.withInput (es : List HostEvent) : Effect → Effect
  | .goesOn s => .goesOn (s.withInput es)
  | .ends s => .ends (s.withInput es)
  | .stuck r => .stuck r

/-- The outcome with other events waiting. -/
def outcomeWithInput (es : List HostEvent) : Host.Outcome State Fault Refusal → Host.Outcome State Fault Refusal
  | .next s => .next (s.withInput es)
  | .fault r => .fault r
  | .refused r => .refused r

section
variable (s : State) (es : List HostEvent)

theorem emitAll_withInput (bytes : List Byte) : emitAll bytes (s.withInput es) = (emitAll bytes s).withInput es := by
  unfold emitAll
  rw [withInput_sink]
  split_ifs
  · rfl
  · rfl

theorem flush_withInput : flush (s.withInput es) = (flush s).withInput es := by
  unfold flush
  rw [withInput_chunk]
  cases decodeChunk s.chunk with
  | err kind payload => rfl
  | ok bytes => exact emitAll_withInput s.emptyChunk es _

theorem charEffect_withInput (c : Byte) : charEffect c (s.withInput es) = (charEffect c s).withInput es := by
  unfold charEffect flushIfFull
  have hlen : ((s.withInput es).append c).chunkLen = (s.append c).chunkLen := rfl
  rw [withInput_runState, hlen]
  split_ifs
  · rfl
  · rfl
  · exact flush_withInput (s.append c) es
  · rfl

theorem eosEffect_withInput : eosEffect (s.withInput es) = (eosEffect s).withInput es := by
  unfold eosEffect flushIfAny
  rw [withInput_runState, withInput_chunkLen]
  split_ifs
  · rfl
  · rw [flush_withInput]
    cases flush s <;> rfl
  · rfl

theorem unlessHalted_withInput {command : State → Effect}
    (hcommand : command (s.withInput es) = (command s).withInput es) :
    unlessHalted command (s.withInput es) = outcomeWithInput es (unlessHalted command s) := by
  unfold unlessHalted
  rw [withInput_runState, hcommand]
  split_ifs
  · rfl
  · cases command s <;> rfl

/-- No command reads or writes the events that wait (R57). -/
theorem exec_withInput (i : Instr) : exec i (s.withInput es) = outcomeWithInput es (exec i s) := by
  cases i with
  | char c => exact unlessHalted_withInput s es (charEffect_withInput s es c)
  | eos => exact unlessHalted_withInput s es (eosEffect_withInput s es)
  | sinkfail code => exact unlessHalted_withInput s es rfl
  | exterr code => exact unlessHalted_withInput s es rfl
  | reserved47 op => exact unlessHalted_withInput s es rfl
  | reserved8F op => exact unlessHalted_withInput s es rfl

end

/-! ## Steps -/

/-- Settles O43, by induction on the words: a step runs the first, and the events that wait have no part in it. -/
theorem stepsRunTheWordsInOrder : Obligations.StepsRunTheWordsInOrder := by
  unfold Obligations.StepsRunTheWordsInOrder
  intro ws
  induction ws with
  | nil =>
    intro s rest _ hi
    rw [List.map_nil, List.nil_append] at hi
    simp [runSteps, runWords, ← hi]
  | cons w ws ih =>
    intro s rest hrst hi
    have hstep : step s = outcomeWithInput (ws.map .command ++ rest) (exec (decode w) (s.withInput rest)) := by
      rw [← exec_withInput]
      exact stepRunsThePresentedCommand.1 s w _ hi hrst
    have hinput : { s with input := rest } = s.withInput rest := rfl
    rw [List.length_cons, runSteps, hstep, runWords, hinput]
    cases hexec : exec (decode w) (s.withInput rest) with
    | next t =>
      have hrst' : t.rst = false := (exec_rst hexec).trans hrst
      have hinput : t.input = rest := exec_input hexec
      have hback : (t.withInput (ws.map .command ++ rest)).withInput rest = t := by rw [← hinput]; rfl
      exact (ih (t.withInput (ws.map .command ++ rest)) rest hrst' rfl).trans (congrArg (runWords ws) hback)
    | fault r => rfl
    | refused r => rfl

end Sys2Proof.Machine
end

section
/-! PROOFS. A stream is decoded by chunks (R108, R127, R128). -/

namespace Sys2Proof.Machine

open Sys2Proof

/-- Settles O45, from the induction over the stream in `State.StartsStream.endsStream`. -/
theorem streamIsDecodedByChunks : Obligations.StreamIsDecodedByChunks := by
  unfold Obligations.StreamIsDecodedByChunks
  intro cs s hstart
  obtain ⟨t, hrun, hends⟩ := hstart.endsStream cs
  obtain ⟨-, -, hkind, hpayload, hempty, -⟩ := hstart
  refine ⟨t, hrun, hends.chunkLen, by rw [hends.outLog, hempty, List.nil_append], ?_⟩
  cases hr : (streamResult s.hexEn (chunksOf8 (dataBytes cs))).2 with
  | none => simpa only [hkind, hpayload] using hends.done hr
  | some e => exact hends.halted e.1 e.2 hr

end Sys2Proof.Machine
end

section
/-! PROOFS. The invariant between steps (R22, R26, R27, R103, R141). -/

namespace Sys2Proof.Machine

open Sys2Proof

/-- Settles O39: every clause is about the registers a reset has set. -/
theorem resetMeetsInvariant : Obligations.ResetMeetsInvariant := by
  unfold Obligations.ResetMeetsInvariant
  have hreset : ∀ pin buf, (State.resetWith pin buf).Inv := fun pin buf => by
    refine ⟨?_, ?_, ?_, ?_, ?_⟩
    · simp [State.resetWith]
    · simp [State.ErrorInv, State.resetWith]
    · simp [State.ChunkInv, State.chunk, State.resetWith]
    · simp [State.PayloadInv, State.resetWith]
    · simp [State.HexInv, State.resetWith]
  exact ⟨hreset, hreset _ _⟩

/-! ## The clauses beside R27 -/

/-- The invariant but for the clauses of R27, which `errorRegistersInvariant` keeps by themselves. -/
structure State.DataInv (s : State) : Prop where
  lenInRange : s.LenInRange
  chunk : s.ChunkInv
  payload : s.PayloadInv
  hex : s.HexInv

theorem State.Inv.dataInv {s : State} (h : s.Inv) : s.DataInv := by
  obtain ⟨hlen, -, hchunk, hpayload, hhex⟩ := h
  exact ⟨hlen, hchunk, hpayload, hhex⟩

theorem State.DataInv.inv {s : State} (h : s.DataInv) (herror : s.ErrorInv) : s.Inv :=
  ⟨h.lenInRange, herror, h.chunk, h.payload, h.hex⟩

/-- The payload an error of this kind can have (R26). -/
def PayloadAllowed (kind : ErrKind) (payload : Byte) : Prop :=
  (kind = .invalidData → validChar payload = false) ∧
  (kind = .invalidSize → payload = 0x01#8 ∨ payload = 0x03#8 ∨ payload = 0x06#8)

/-- The errors of a decode have their payloads: the chunk has at most eight characters (R122, R123). -/
theorem payloadAllowed_of_decodeChunk {r : State} {kind : ErrKind} {payload : Byte}
    (h : decodeChunk r.chunk = .err kind payload) : PayloadAllowed kind payload := by
  obtain ⟨rfl, rfl, hn⟩ | ⟨rfl, -, hbad⟩ := decodeChunk_err h
  · refine ⟨nofun, fun _ => ?_⟩
    have hle : r.chunk.length ≤ 8 := by rw [length_chunk]; omega
    obtain ⟨h0, h2, h4, h5, h7, h8⟩ := nbytes_eq_none hn
    have hlen : r.chunk.length = 1 ∨ r.chunk.length = 3 ∨ r.chunk.length = 6 := by omega
    obtain hl | hl | hl := hlen
    · rw [hl]; exact .inl rfl
    · rw [hl]; exact .inr (.inl rfl)
    · rw [hl]; exact .inr (.inr rfl)
  · exact ⟨fun _ => hbad, nofun⟩

/-- However much the chunk has grown inside a command, a flush empties it (R120). -/
theorem emptyChunk_dataInv {r : State} (hpayload : r.PayloadInv) (hhex : r.HexInv) : r.emptyChunk.DataInv :=
  ⟨by simp, by simp [State.ChunkInv], hpayload, hhex⟩

theorem resetBlock_dataInv (r : State) : (resetBlock r).DataInv :=
  ⟨by simp [resetBlock], by simp [State.ChunkInv, State.chunk, resetBlock], by simp [State.PayloadInv, resetBlock],
    by simp [State.HexInv, resetBlock]⟩

section
variable {s : State} (h : s.DataInv)
include h

theorem State.DataInv.latch {kind : ErrKind} {payload : Byte} (hp : PayloadAllowed kind payload) :
    (s.latch kind payload).DataInv :=
  ⟨h.lenInRange, h.chunk, hp, h.hex⟩

/-- A character that is appended and does not fill the chunk (R101, R103). -/
theorem State.DataInv.append {c : Byte} (hc : isWhitespace c = false) (hl : (s.append c).chunkLen ≠ 8#4) :
    (s.append c).DataInv := by
  have hlen := h.lenInRange
  have hnext := append_chunkLen_toNat s c hlen
  have hne : (s.append c).chunkLen.toNat ≠ 8 := fun heq => hl (BitVec.eq_of_toNat_eq heq)
  refine ⟨by omega, ?_, h.payload, h.hex⟩
  rw [State.ChunkInv, append_chunk s c hlen]
  exact List.forall_mem_append.mpr ⟨h.chunk, by simpa using hc⟩

theorem State.DataInv.markDone : s.markDone.DataInv := ⟨h.lenInRange, h.chunk, h.payload, h.hex⟩

theorem State.DataInv.taken : s.taken.DataInv := ⟨h.lenInRange, h.chunk, h.payload, h.hex⟩

/-- Output that is hex text in hex mode keeps OUT_LOG hex text. -/
theorem State.DataInv.put {bytes : List Byte} (sink : Sink) (hb : s.hexEn = true → ∀ b ∈ bytes, isHexCode b = true) :
    (s.put bytes sink).DataInv :=
  ⟨h.lenInRange, h.chunk, h.payload, fun hhex => List.forall_mem_append.mpr ⟨h.hex hhex, hb hhex⟩⟩

/-- With HEX_EN set a flush puts hex text out (R141). -/
theorem State.DataInv.put_formatOut (bytes : List Byte) (sink : Sink) :
    (s.put (formatOut s.hexEn bytes) sink).DataInv :=
  h.put sink fun hhex b hb => isHexCode_of_mem_toHex (bytes := bytes) (by rwa [hhex, formatOut_true] at hb)

/-- A command that completes keeps the clauses, by the six changes it can make. -/
theorem State.DataInv.exec {i : Instr} {t : State} (hexec : exec i s = .next t) : t.DataInv := by
  have hflush : s.emptyChunk.DataInv := emptyChunk_dataInv h.payload h.hex
  have hfill (c : Byte) : (s.append c).emptyChunk.DataInv := emptyChunk_dataInv h.payload h.hex
  obtain hsame | ⟨-, kind, payload, hkind, rfl⟩ | ⟨-, c, -, hc, hl, rfl⟩ | ⟨-, -, -, rfl⟩ |
    ⟨r, kind, payload, -, hd, rfl, hr⟩ | ⟨r, bytes, -, -, hout⟩ := exec_next_cases hexec
  · rwa [hsame]
  · exact h.latch (by rcases hkind with rfl | rfl <;> exact ⟨nofun, nofun⟩)
  · exact h.append hc hl
  · exact h.markDone
  · obtain ⟨-, -, rfl⟩ | ⟨c, -, -, -, rfl⟩ := hr
    · exact hflush.latch (payloadAllowed_of_decodeChunk hd)
    · exact (hfill c).latch (payloadAllowed_of_decodeChunk hd)
  · obtain ⟨-, -, rfl, rfl⟩ | ⟨c, -, -, -, rfl, rfl⟩ := hout
    · exact (hflush.put_formatOut bytes _).markDone
    · exact (hfill c).put_formatOut bytes _

/-- What a reset finds of a command's output is hex text in hex mode. -/
theorem State.DataInv.isHexCode_sentBeforeReset {w : Word} {n : Nat} (hhex : s.hexEn = true) :
    ∀ b ∈ sentBeforeReset w n s, isHexCode b = true := by
  have halways : State.DataInv { s with sink := .always } := ⟨h.lenInRange, h.chunk, h.payload, h.hex⟩
  obtain ⟨t, ht⟩ := exec_completes_of_always (decode w) (s := { s with sink := .always }) rfl
  have hall := (halways.exec ht).hex ((exec_hexEn ht).trans hhex)
  rw [outLog_eq_append_commandOutput ht] at hall
  exact fun b hb => hall b (List.mem_append_right _ (List.mem_of_mem_take hb))

/-- A reset inside a command writes OUT_LOG alone of what the clauses are about (R182). -/
theorem State.DataInv.abandonCommand (w : Word) (n : Nat) : (abandonCommand (sentBeforeReset w n s) s).DataInv :=
  have hput := h.put s.sink h.isHexCode_sentBeforeReset
  ⟨hput.lenInRange, hput.chunk, hput.payload, hput.hex⟩

/-- A step that completes keeps the clauses. -/
theorem State.DataInv.step {t : State} (hstep : step s = .next t) : t.DataInv := by
  cases step_effect hstep with
  | command w _ hrst hhead hexec => exact h.taken.exec hexec
  | cut w n => exact h.taken.abandonCommand w n
  | reset hrst hhead => exact resetBlock_dataInv _
  | pins rst hexEnPin => exact ⟨h.lenInRange, h.chunk, h.payload, h.hex⟩

end

/-- Settles O40: the clauses of R27 by `errorRegistersInvariant`, the others by what a step can do. -/
theorem stepKeepsInvariant : Obligations.StepKeepsInvariant := by
  unfold Obligations.StepKeepsInvariant
  intro s t hs hstep
  have hdata := hs.dataInv
  obtain ⟨-, herror, -⟩ := hs
  obtain ⟨herror', -⟩ := errorRegistersInvariant s t herror hstep
  exact (hdata.step hstep).inv herror'

end Sys2Proof.Machine
end
